-- ==== Sys2Proof/Word.lean ====
section
/-! DEFINITION. The words of the block's ports and state, and the command as the command port carries it
(00_scope.md R9, 20_memory.md R51, 30_encoding.md R70). -/

namespace Sys2Proof

/-- A 64-bit data or state word, unsigned (R9). -/
abbrev Word := BitVec 64

/-- A 32-bit header, `H` of a command or `R` of a response (R70, R74). -/
abbrev Header := BitVec 32

/-- Eight bits: an opcode, a status code, or one byte of a dump (R71, R74, R86). -/
abbrev Byte := BitVec 8

/-- One command as it stands on the command port: the header `H` and the operand words `A` and `B` (R51, R70). -/
structure Command where
  h : Header
  a : Word
  b : Word
deriving DecidableEq, Repr

end Sys2Proof
end

