-- ==== Sys2Proof/Syntax.lean ====
section
/-! DEFINITION. The seven commands of 30_encoding.md R76, one constructor for each row of spec/opcode_table.json. -/

namespace Sys2Proof

/-- A decoded command. A context is its index; an operand word that a command ignores (R72) is not part of it. -/
inductive Instr where
  /-- NEW gc [, seed] (R113). `none` is the header bit sp = 0, the document's omitted seed (R111). -/
  | new (ctx : Nat) (seed : Option Word)
  /-- COPY gd, gs (R121): the destination comes first. -/
  | copy (ctx : Nat) (src : Nat)
  /-- JUMP gc (R142). -/
  | jump (ctx : Nat)
  /-- NEXT gc (R132). -/
  | next (ctx : Nat)
  /-- RANGE gc, min, max (R150). -/
  | range (ctx : Nat) (min : Word) (max : Word)
  /-- MIX n (R100). -/
  | mix (n : Word)
  /-- RDMAX (R170). -/
  | rdmax
deriving DecidableEq, Repr

end Sys2Proof
end

