-- ==== Sys2Proof/WellFormed.lean ====
section
/-! DEFINITION. Which instructions have an encoding: every context index fits the 8-bit field that names it
(30_encoding.md R71, R83). An index that fits and names no context is well formed (R79). -/

namespace Sys2Proof

/-- The index fits an 8-bit header field (R71, R83: g0 to g255). -/
def indexFits (c : Nat) : Bool := decide (c < 256)

/-- Every field of the instruction fits its place in the header. -/
def Instr.wf : Instr → Bool
  | .new ctx _ => indexFits ctx
  | .copy ctx src => indexFits ctx && indexFits src
  | .jump ctx => indexFits ctx
  | .next ctx => indexFits ctx
  | .range ctx _ _ => indexFits ctx
  | .mix _ => true
  | .rdmax => true

/-- The instruction has an encoding. -/
abbrev WellFormed (i : Instr) : Prop := i.wf = true

end Sys2Proof
end

