-- ==== Sys2Proof/Decode.lean ====
section
/-! DEFINITION. The opcode map, the decoder and the encoder of 30_encoding.md (R70 to R80, R82, R86), and the byte order
of dumps (20_memory.md R54). -/

namespace Sys2Proof

/-! ## The header's fields (R71) -/

/-- `H[lo + len - 1 : lo]` as an unsigned number (R9). -/
def headerField (h : Header) (lo len : Nat) : Nat := (h.extractLsb' lo len).toNat

/-- Bits 31:24. -/
def opcodeField (h : Header) : Nat := headerField h 24 8

/-- Bits 23:16. -/
def ctxField (h : Header) : Nat := headerField h 16 8

/-- Bits 15:8. -/
def srcField (h : Header) : Nat := headerField h 8 8

/-- Bits 7:1. -/
def zeroField (h : Header) : Nat := headerField h 1 7

/-- Bit 0. -/
def spBit (h : Header) : Bool := h.getLsbD 0

/-! ## The opcode map (R76) -/

/-- The seven operations. -/
inductive Opcode where
  | new | copy | jump | next | range | mix | rdmax
deriving DecidableEq, Repr

/-- One row of the opcode map: a header selects it when its bits under `mask` are `pattern`. -/
structure OpcodeRow where
  opcode   : Opcode
  mnemonic : String
  code     : Nat
  pattern  : Header
  mask     : Header
deriving DecidableEq, Repr

/-- The row of each operation (R76). -/
def Opcode.row : Opcode → OpcodeRow
  | .new => ⟨.new, "NEW", 0x01, 0x01000000#32, 0xFF00FFFE#32⟩
  | .copy => ⟨.copy, "COPY", 0x02, 0x02000000#32, 0xFF0000FF#32⟩
  | .jump => ⟨.jump, "JUMP", 0x03, 0x03000000#32, 0xFF00FFFF#32⟩
  | .next => ⟨.next, "NEXT", 0x04, 0x04000000#32, 0xFF00FFFF#32⟩
  | .range => ⟨.range, "RANGE", 0x05, 0x05000000#32, 0xFF00FFFF#32⟩
  | .mix => ⟨.mix, "MIX", 0x06, 0x06000000#32, 0xFFFFFFFF#32⟩
  | .rdmax => ⟨.rdmax, "RDMAX", 0x07, 0x07000000#32, 0xFFFFFFFF#32⟩

/-- The whole map, in the order of R76. -/
def opcodeTable : List OpcodeRow :=
  [Opcode.new.row, Opcode.copy.row, Opcode.jump.row, Opcode.next.row, Opcode.range.row, Opcode.mix.row,
    Opcode.rdmax.row]

/-- `(H & mask) == match` (R76). -/
def OpcodeRow.selects (row : OpcodeRow) (h : Header) : Bool := h &&& row.mask == row.pattern

/-- The operation an opcode number stands for; 0x00 and 0x08 to 0xFF stand for none (R76, R78). -/
def Opcode.ofNumber (n : Nat) : Option Opcode :=
  match n with
  | 0x01 => some .new
  | 0x02 => some .copy
  | 0x03 => some .jump
  | 0x04 => some .next
  | 0x05 => some .range
  | 0x06 => some .mix
  | 0x07 => some .rdmax
  | _ => none

/-! ## Decoding (R77, R78) -/

/-- Why a command has no meaning. Each of the first two is an illegal header (R78), answered ERR_ILLEGAL (R181). -/
inductive DecodeError where
  /-- The opcode is 0x00 or 0x08 to 0xFF. -/
  | unknownOpcode (opcode : Nat)
  /-- A bit that the row of this mnemonic requires to be 0 is 1. -/
  | mustBeZero (mnemonic : String)
  /-- A byte string shorter than the twenty bytes of a command (dumps only, R54). -/
  | truncated
deriving DecidableEq, Repr

/-- The instruction of a legal command, its free fields read from the header and its operand words from `A` and `B`
(R71, R72). -/
def Opcode.instr (op : Opcode) (c : Command) : Instr :=
  match op with
  | .new => .new (ctxField c.h) (if spBit c.h then some c.a else none)
  | .copy => .copy (ctxField c.h) (srcField c.h)
  | .jump => .jump (ctxField c.h)
  | .next => .next (ctxField c.h)
  | .range => .range (ctxField c.h) c.a c.b
  | .mix => .mix c.a
  | .rdmax => .rdmax

/-- The decoder of R77: read the opcode, test the row's mask, then read the free fields. -/
def decode (c : Command) : Except DecodeError Instr :=
  match Opcode.ofNumber (opcodeField c.h) with
  | none => .error (.unknownOpcode (opcodeField c.h))
  | some op => if op.row.selects c.h then .ok (op.instr c) else .error (.mustBeZero op.row.mnemonic)

/-- The header is one of the seven commands (the negation of R78's illegal). -/
def legalHeader (h : Header) : Bool := opcodeTable.any (·.selects h)

/-! ## Encoding (R71, R82) -/

/-- The header with these fields, and the must-be-zero bits 0: `{opcode, ctx, src, zero, sp}` (R71). -/
def encodeHeader (op : Opcode) (ctx src : Nat) (sp : Bool) : Header :=
  BitVec.ofNat 8 op.row.code ++ BitVec.ofNat 8 ctx ++ BitVec.ofNat 8 src ++ 0#7 ++ BitVec.ofBool sp

/-- The command an instruction assembles to; an ignored operand word is 0 (R82). -/
def encode : Instr → Command
  | .new ctx (some seed) => ⟨encodeHeader .new ctx 0 true, seed, 0#64⟩
  | .new ctx none => ⟨encodeHeader .new ctx 0 false, 0#64, 0#64⟩
  | .copy ctx src => ⟨encodeHeader .copy ctx src false, 0#64, 0#64⟩
  | .jump ctx => ⟨encodeHeader .jump ctx 0 false, 0#64, 0#64⟩
  | .next ctx => ⟨encodeHeader .next ctx 0 false, 0#64, 0#64⟩
  | .range ctx min max => ⟨encodeHeader .range ctx 0 false, min, max⟩
  | .mix n => ⟨encodeHeader .mix 0 0 false, n, 0#64⟩
  | .rdmax => ⟨encodeHeader .rdmax 0 0 false, 0#64, 0#64⟩

/-- The operation an instruction is a form of. -/
def Instr.opcode : Instr → Opcode
  | .new _ _ => .new
  | .copy _ _ => .copy
  | .jump _ => .jump
  | .next _ => .next
  | .range _ _ _ => .range
  | .mix _ => .mix
  | .rdmax => .rdmax

/-! ## The command as one number and as bytes (R70, R54, R86) -/

/-- The command as one 160-bit value `{B, A, H}` (R70). -/
def Command.bits (c : Command) : BitVec 160 := c.b ++ c.a ++ c.h

/-- The command a number stands for: `H` is bits 31 to 0, `A` bits 95 to 32, `B` bits 159 to 96 (R70). -/
def Command.ofNat (w : Nat) : Command :=
  ⟨BitVec.ofNat 32 w, BitVec.ofNat 64 (w >>> 32), BitVec.ofNat 64 (w >>> 96)⟩

/-- The `n` low bytes of a number, least significant first (R54). -/
def leBytes : Nat → Nat → List Byte
  | 0, _ => []
  | n + 1, v => BitVec.ofNat 8 v :: leBytes n (v / 256)

/-- The number whose bytes these are, least significant first (R54). -/
def leNat : List Byte → Nat
  | [] => 0
  | b :: bs => b.toNat + 256 * leNat bs

/-- The twenty bytes of a command: `H`, `A`, `B`, each least significant byte first (R54, R86). -/
def Command.toBytes (c : Command) : List Byte :=
  leBytes 4 c.h.toNat ++ leBytes 8 c.a.toNat ++ leBytes 8 c.b.toNat

/-- The command of twenty bytes laid out as `Command.toBytes` lays them (R54). -/
def Command.ofBytes (bs : List Byte) : Command := Command.ofNat (leNat (bs.take 20))

/-- The instruction that a byte string begins with, and the bytes after it; every instruction has twenty bytes (R80). -/
def decodeBytes (bs : List Byte) : Except DecodeError (Instr × List Byte) :=
  if bs.length < 20 then .error .truncated
  else (decode (Command.ofBytes bs)).map fun i => (i, bs.drop 20)

/-- The instruction in a number of `nbits` bits, numbered as spec/opcode_table.json numbers them: bit 0 is bit 0 of `H`,
and every bit from `nbits` up is 0. -/
def decodeTableWord (nbits w : Nat) : Option Instr := (decode (Command.ofNat (w % 2 ^ nbits))).toOption

end Sys2Proof
end

