-- ==== Sys2Proof/Machine/Scratch.lean ====
section
/-! DEFINITION. The sequencer's hidden registers (10_state.md R37), kept together because they are released together: they
"do not survive the command". -/

namespace Sys2Proof.Machine

/-- The working registers of R37, with the context index latched from the header (log entry 9). -/
structure Scratch where
  /-- MODEL'S OWN (DEDUCED, log entry 9): the context of the running JUMP or RANGE; `H` is not looked at again (R52). -/
  ctx        : Nat
  /-- JUMP's first accumulator. -/
  acc0       : Word
  /-- JUMP's second accumulator. -/
  acc1       : Word
  /-- JUMP's iteration index `i`, 0 to 127; the phase JUMPING(i) of R36 reads it here. -/
  iter       : BitVec 7
  /-- RANGE's `min_l`: the operand `A`, kept for the final addition. -/
  minL       : Word
  /-- RANGE's `range`. -/
  range      : Word
  /-- RANGE's `bucket_size`. -/
  bucketSize : Word
  /-- RANGE's `threshold`. -/
  threshold  : Word
  /-- `r`, the raw output of the last step of NEXT or RANGE. -/
  raw        : Word
deriving DecidableEq, Repr, Inhabited

/-- All hidden registers 0: their value at reset, where R43 gives none (DESIGN CHOICE, log entry 4). -/
def Scratch.zero : Scratch :=
  { ctx := 0, acc0 := 0#64, acc1 := 0#64, iter := 0#7, minL := 0#64, range := 0#64, bucketSize := 0#64,
    threshold := 0#64, raw := 0#64 }

end Sys2Proof.Machine
end

