-- ==== Sys2Proof/Config.lean ====
section
/-! DEFINITION. What an implementation fixes, and the free values (92_eei_decisions.md "Parameters left open",
93_implementation_defined.md U2, U7, U12). -/

namespace Sys2Proof

/-- `NCTX` of the machine that `State.reset` describes: 4, the value of the spec's test vectors (R6). DESIGN CHOICE, log
entry 2. No instruction reads it: the number of contexts of a state is the length of its context file. -/
def Config.nctx : Nat := 4

/-- The entropy draw `E` number `n` of those the environment has not scripted: a free value under no law (R8, R112).
Log entry 5. -/
opaque Config.entropy : Nat → Word

/-- What the hidden registers hold once a command that used them has ended, at its `n`-th occurrence: a free value, since
they do not survive the command (R37). Log entry 4. -/
opaque Config.releasedScratch : Nat → Machine.Scratch

end Sys2Proof
end

