-- ==== Sys2Proof/Machine/State.lean ====
section
/-! DEFINITION. The state of the block and of its ports, the reasons a step can stop, and reset (10_state.md R30 to R44,
20_memory.md R51 to R53). The block has no memory (R50), so the state has none. -/

namespace Sys2Proof.Machine

/-- One generator context `G[i]` (R30). -/
structure Context where
  s0    : Word
  s1    : Word
  /-- The context holds a constructed generator (R32). -/
  valid : Bool
deriving DecidableEq, Repr

/-- The outcome codes of a response (R180). -/
inductive Status where
  | ok | errIllegal | errReceiver | errUnseeded
deriving DecidableEq, Repr

/-- One response on the response port (R74): the fields of `R` that are not always 0, and the data word `D`. -/
structure Response where
  status : Status
  dv     : Bool
  data   : Word
deriving DecidableEq, Repr

/-- The sequencer's phase (R36). The index of JUMPING(i) is the register `iter`. -/
inductive Phase where
  | idle | jumping | drawing
deriving DecidableEq, Repr

/-- The block, and its ports as their environment drives and reads them. -/
structure State where
  /-- The context file `G[0]` to `G[NCTX-1]` (R30); `NCTX` is its length (log entry 2). -/
  ctxs      : List Context
  /-- The sequencer's phase (R36). -/
  phase     : Phase
  /-- The sequencer's hidden registers (R37). -/
  scratch   : Scratch
  /-- The command port: the commands the host presents, the next one first (R52; log entry 6). -/
  commands  : List Command
  /-- The entropy port: values the environment has set for the next draws (R51, R112; log entry 5). -/
  entropy   : List Word
  /-- MODEL'S OWN: how many free draws were taken, the index of the next `Config.entropy` (log entry 5). -/
  draws     : Nat
  /-- MODEL'S OWN: how often the hidden registers were released, the index of the next `Config.releasedScratch`
  (log entry 4). -/
  releases  : Nat
  /-- The response port: the responses presented and not collected, the oldest first (R53; log entry 7). -/
  responses : List Response
deriving DecidableEq, Repr

/-- Reasons for which the model stops with a fault. -/
inductive Fault where
  /-- Raised by a pass of JUMP or RANGE when the latched index names no context. No state with `State.Inv` gets there;
  safe (log entry 11). -/
  | noContext
deriving DecidableEq, Repr

/-- Reasons for which the model refuses. -/
inductive Refusal where
  /-- Raised by `exec` alone for an instruction without a meaning; no arm does. Safe. -/
  | notModelled (mnemonic : String)
  /-- Raised where a division by zero would be needed, which the spec gives no value (R19, U8). No RANGE command and no
  state with `State.Inv` gets there; safe (log entry 10). -/
  | divisionByZero
deriving DecidableEq, Repr

/-- `NCTX`, the number of contexts (R6, R30). -/
def State.nctx (s : State) : Nat := s.ctxs.length

/-- A context after reset: not valid (R43); its words are unspecified there and 0 here (DESIGN CHOICE, log entry 3). -/
def Context.unseeded : Context := { s0 := 0#64, s1 := 0#64, valid := false }

/-- The block with `n` contexts right after reset, nothing on its ports (R43, R200). -/
def State.resetOf (n : Nat) : State :=
  { ctxs := List.replicate n Context.unseeded, phase := .idle, scratch := Scratch.zero, commands := [], entropy := [],
    draws := 0, releases := 0, responses := [] }

/-- The machine right after reset, with the number of contexts of `Config.nctx` (R43). -/
def State.reset : State := State.resetOf Config.nctx

end Sys2Proof.Machine
end

