-- ==== Sys2Proof/Machine/Flags.lean ====
section
/-! DEFINITION. The block has no flag register and no condition codes (10_state.md R38): no operation records a carry, a
borrow, an overflow or a zero. What reports the outcome of a command is the header of its response (30_encoding.md R74,
R75; 60_exceptions.md R180), laid out here. -/

namespace Sys2Proof.Machine

/-- The status code of an outcome (R180). -/
def Status.code : Status → Byte
  | .ok => 0x00#8
  | .errIllegal => 0x01#8
  | .errReceiver => 0x02#8
  | .errUnseeded => 0x03#8

/-- A response without a value: `dv` and `D` are 0 (R75). -/
def Response.plain (st : Status) : Response := { status := st, dv := false, data := 0#64 }

/-- A response that ends OK with a value (R75). -/
def Response.value (d : Word) : Response := { status := .ok, dv := true, data := d }

/-- The header `R`: bits 31:9 are 0, bit 8 is `dv`, bits 7:0 the status (R74). -/
def Response.header (r : Response) : Header := 0#23 ++ BitVec.ofBool r.dv ++ r.status.code

/-- The response as one 96-bit value `{D, R}` (R74). -/
def Response.bits (r : Response) : BitVec 96 := r.data ++ r.header

end Sys2Proof.Machine
end

