-- ==== Sys2Proof/Machine/Ops.lean ====
section
/-! DEFINITION. The shared operations: reading and writing a context, ending a command with a response or an error, the
entropy draw, the ports as the host drives them, and reset. -/

namespace Sys2Proof.Machine

/-- What a meaning answers. -/
abbrev Result := Host.Outcome State Fault Refusal

/-! ## The context file (R30, R33) -/

/-- Context `G[c]`, if there is one. -/
def State.ctx? (s : State) (c : Nat) : Option Context := s.ctxs[c]?

/-- `G[c] <- g`; no other context is written (R33). -/
def State.setCtx (s : State) (c : Nat) (g : Context) : State := { s with ctxs := s.ctxs.set c g }

/-- `G[c].s0 <- w0`, `G[c].s1 <- w1` for the context read as `g`; its valid flag stays. -/
def State.setWords (s : State) (c : Nat) (g : Context) (w0 w1 : Word) : State :=
  s.setCtx c { g with s0 := w0, s1 := w1 }

/-! ## Ending a command (R74, R75, R185) -/

/-- `respond`: present the response, end the command and return to IDLE (R74). -/
def State.respond (s : State) (r : Response) : State := { s with phase := .idle, responses := s.responses ++ [r] }

/-- The hidden registers do not survive the command that used them (R37): from its end on they hold a free value
(log entry 4). -/
def State.releaseScratch (s : State) : State :=
  { s with scratch := Config.releasedScratch s.releases, releases := s.releases + 1 }

/-- TAKING AN ERROR (R10, R185): write no state, respond with the status, `dv` = 0 and `D` = 0. There is nothing to return
from (R187). -/
def raise (st : Status) (s : State) : Result := .next (s.respond (Response.plain st))

/-! ## Entropy (R112, R63) -/

/-- Sample the entropy port once: the value the environment has set for this draw, else a free value. -/
def State.drawEntropy (s : State) : Word × State :=
  match s.entropy with
  | e :: rest => (e, { s with entropy := rest })
  | [] => (Config.entropy s.draws, { s with draws := s.draws + 1 })

/-! ## The ports as the host and the environment drive them -/

/-- Take the command the host presents, if there is one; `H`, `A` and `B` are taken together (R52). -/
def State.takeCommand (s : State) : Option (Command × State) :=
  match s.commands with
  | [] => none
  | c :: rest => some (c, { s with commands := rest })

/-- The host presents one more command after those it has presented already (R52, R56). -/
def State.offer (s : State) (c : Command) : State := { s with commands := s.commands ++ [c] }

/-- The environment sets the value of one more entropy draw (R51, R112). -/
def State.offerEntropy (s : State) (e : Word) : State := { s with entropy := s.entropy ++ [e] }

/-- The reset event (R44, R200): every context becomes unseeded, a command in progress is abandoned without a response, no
response is pending. What the host and the environment have still to send is theirs and stays. Log entry 13. -/
def State.applyReset (s : State) : State :=
  { State.resetOf s.nctx with
    commands := s.commands, entropy := s.entropy, draws := s.draws, releases := s.releases }

end Sys2Proof.Machine
end

