-- ==== Sys2Proof/Machine/Operands.lean ====
section
/-! DEFINITION. The operand forms. Operand words are used as they are (30_encoding.md R73); a context operand is tested as
60_exceptions.md R182, R183 and R186 say, before anything is written. -/

namespace Sys2Proof.Machine

/-- The context operand `c`: ERR_RECEIVER when it names no context (R182), else go on with what it holds. -/
def withContext (c : Nat) (s : State) (k : Context → Result) : Result :=
  match s.ctx? c with
  | none => raise .errReceiver s
  | some g => k g

/-- The context operand `c` where a generator is needed: ERR_RECEIVER, then ERR_UNSEEDED when it holds no generator
(R183), else go on with the generator. -/
def withGenerator (c : Nat) (s : State) (k : Context → Result) : Result :=
  withContext c s fun g => if g.valid then k g else raise .errUnseeded s

/-- The effective seed of a construction, and the state after the draw it may need (R111): a seed that is given and is not
0 is used as it is; a seed omitted or 0 is replaced by a draw. -/
def effectiveSeed (seed : Option Word) (s : State) : Word × State :=
  match seed with
  | some a => if a ≠ 0#64 then (a, s) else s.drawEntropy
  | none => s.drawEntropy

end Sys2Proof.Machine
end

