-- ==== Sys2Proof/Machine/Copy.lean ====
section
/-! DEFINITION. The COPY command (42_copy.md). -/

namespace Sys2Proof.Machine

/-- COPY gd, gs (R121): both indices are tested before the source's valid flag. -/
def execCopy (d src : Nat) (s : State) : Result :=
  withContext d s fun _ =>
    withGenerator src s fun g =>
      .next ((s.setCtx d { s0 := g.s0, s1 := g.s1, valid := true }).respond (Response.plain .ok))

end Sys2Proof.Machine
end

