-- ==== Sys2Proof/Machine/Arith.lean ====
section
/-! DEFINITION. The wired constants (10_state.md R39) and the 64-bit primitives (00_scope.md R12 to R20). A word's
`+`, `-`, `*`, `/`, `%`, shifts and comparisons are the library's on unsigned 64-bit words. -/

namespace Sys2Proof.Machine

/-- `RAND_MAX`, the all-ones word (R39, R171). -/
def randMax : Word := 0xFFFFFFFFFFFFFFFF#64

/-- `JUMP[0]` (R39, R141). -/
def jumpConst0 : Word := 0xBEAC0467EBA5FACB#64

/-- `JUMP[1]` (R39, R141). -/
def jumpConst1 : Word := 0xD86B048B86AA9922#64

/-- The constant added by `MIX` (R39, R101). -/
def mixIncrement : Word := 0x9E3779B97F4A7C15#64

/-- The first multiplier of `MIX` (R39, R101). -/
def mixMul1 : Word := 0xBF58476D1CE4E5B9#64

/-- The second multiplier of `MIX` (R39, R101). -/
def mixMul2 : Word := 0x94D049BB133111EB#64

/-- Addition modulo 2^64 (R12). -/
def add64 (a b : Word) : Word := a + b

/-- Subtraction modulo 2^64 (R13). -/
def sub64 (a b : Word) : Word := a - b

/-- The low 64 bits of the product (R14). -/
def mul64 (a b : Word) : Word := a * b

/-- Bitwise exclusive or (R15). -/
def xor64 (a b : Word) : Word := a ^^^ b

/-- Bitwise or (R15). -/
def or64 (a b : Word) : Word := a ||| b

/-- Bitwise and (R15). -/
def and64 (a b : Word) : Word := a &&& b

/-- The shift amounts that have a meaning (R16, R17; log entry 12). -/
abbrev ShiftAmount (n : Nat) : Prop := 0 < n ∧ n < 64

/-- Left shift, for an amount that has a meaning (R16). -/
def shl64 (a : Word) (n : Nat) (_h : ShiftAmount n := by decide) : Word := a <<< n

/-- Logical right shift, for an amount that has a meaning (R16). -/
def shr64 (a : Word) (n : Nat) (_h : ShiftAmount n := by decide) : Word := a >>> n

/-- Circular left rotation, for an amount that has a meaning (R17). -/
def rotl64 (x : Word) (n : Nat) (h : ShiftAmount n := by decide) : Word :=
  or64 (shl64 x n h) (shr64 x (64 - n) ⟨Nat.sub_pos_of_lt h.2, Nat.sub_lt (by decide) h.1⟩)

/-- Truncating division; no value for a divisor 0 (R18, R19). -/
def udiv64 (a b : Word) : Option Word := if b = 0#64 then none else some (a / b)

/-- The remainder of the truncating division; no value for a divisor 0 (R18, R19). -/
def umod64 (a b : Word) : Option Word := if b = 0#64 then none else some (a % b)

end Sys2Proof.Machine
end

