-- ==== Sys2Proof/Machine/Next.lean ====
section
/-! DEFINITION. The STEP unit and the NEXT command (43_next_step.md). -/

namespace Sys2Proof.Machine

/-- What one step gives: the output and the two new state words. -/
structure StepResult where
  result : Word
  s0     : Word
  s1     : Word
deriving DecidableEq, Repr

/-- `STEP(s0, s1)`, one step of xoroshiro128+ (R131). -/
def stepWords (s0 s1 : Word) : StepResult :=
  let x := xor64 s1 s0
  { result := add64 s0 s1
    s0 := xor64 (xor64 (rotl64 s0 55) x) (shl64 x 14)
    s1 := rotl64 x 36 }

/-- The step map `T` on the pair of state words (R135). -/
def stepMap (w : Word × Word) : Word × Word := ((stepWords w.1 w.2).s0, (stepWords w.1 w.2).s1)

/-- The output of one step from a pair of state words (R131). -/
def stepOutput (w : Word × Word) : Word := (stepWords w.1 w.2).result

/-- NEXT gc (R132). The register `r` that holds the output does not survive the command (R37). -/
def execNext (c : Nat) (s : State) : Result :=
  withGenerator c s fun g =>
    let n := stepWords g.s0 g.s1
    .next (((s.setWords c g n.s0 n.s1).releaseScratch).respond (Response.value n.result))

end Sys2Proof.Machine
end

