-- ==== Sys2Proof/Machine/Jump.lean ====
section
/-! DEFINITION. The JUMP unit and the JUMP command (44_jump.md), as the small steps of R144, and the closed form of the whole
jump (R142, R143). -/

namespace Sys2Proof.Machine

/-- The bit that iteration `k` looks at: bit `k mod 64` of `JUMP[floor(k / 64)]` (R141). -/
def jumpBit (k : Nat) : Bool := if k < 64 then jumpConst0.getLsbD k else jumpConst1.getLsbD (k % 64)

/-- The accumulators after iteration `k`'s accumulation of the current words `w` (R142). -/
def accumulate (k : Nat) (acc w : Word × Word) : Word × Word :=
  if jumpBit k then (xor64 acc.1 w.1, xor64 acc.2 w.2) else acc

/-- `n` iterations of R142 from iteration `k` on: the accumulators they end with. -/
def jumpLoop : (n k : Nat) → (acc w : Word × Word) → Word × Word
  | 0, _, acc, _ => acc
  | n + 1, k, acc, w => jumpLoop n (k + 1) (accumulate k acc w) (stepMap w)

/-- The words a jump leaves, from the words before it: 128 iterations with both accumulators starting at 0 (R142, R143). -/
def jumpWords (w : Word × Word) : Word × Word := jumpLoop 128 0 (0#64, 0#64) w

/-- JUMP gc (R142, R144): taking a legal JUMP on a generator clears the accumulators and goes to JUMPING(0). -/
def execJump (c : Nat) (s : State) : Result :=
  withGenerator c s fun _ =>
    .next { s with
      phase := .jumping
      scratch := { s.scratch with ctx := c, acc0 := 0#64, acc1 := 0#64, iter := 0#7 } }

/-- One body of the loop in phase JUMPING(i) (R144): accumulate, step the live words always, then go to JUMPING(i + 1), or
after i = 127 write the accumulators to the context and respond. The output of the step is thrown away (R142). -/
def jumpPass (s : State) : Result :=
  match s.ctx? s.scratch.ctx with
  | none => .fault .noContext
  | some g =>
    let acc := accumulate s.scratch.iter.toNat (s.scratch.acc0, s.scratch.acc1) (g.s0, g.s1)
    if s.scratch.iter = 127#7 then
      .next (((s.setWords s.scratch.ctx g acc.1 acc.2).releaseScratch).respond (Response.plain .ok))
    else
      let n := stepWords g.s0 g.s1
      .next { s.setWords s.scratch.ctx g n.s0 n.s1 with
        scratch := { s.scratch with acc0 := acc.1, acc1 := acc.2, iter := s.scratch.iter + 1#7 } }

end Sys2Proof.Machine
end

