-- ==== Sys2Proof/Machine/Mix.lean ====
section
/-! DEFINITION. The MIX unit and the MIX command (40_mix_splitmix64.md). -/

namespace Sys2Proof.Machine

/-- `MIX(n)`, the splitmix64 finaliser (R101). -/
def mixWord (n : Word) : Word :=
  let t1 := add64 n mixIncrement
  let t2 := mul64 (xor64 t1 (shr64 t1 30)) mixMul1
  let t3 := mul64 (xor64 t2 (shr64 t2 27)) mixMul2
  xor64 t3 (shr64 t3 31)

/-- MIX n (R100). -/
def execMix (n : Word) (s : State) : Result := .next (s.respond (Response.value (mixWord n)))

end Sys2Proof.Machine
end

