-- ==== Sys2Proof/Machine/New.lean ====
section
/-! DEFINITION. Construction, the NEW command (41_new_construction.md). -/

namespace Sys2Proof.Machine

/-- The generator a construction from the effective seed `n` makes: `s0` is the mixed seed, `s1` the raw seed (R110). -/
def seeded (n : Word) : Context := { s0 := mixWord n, s1 := n, valid := true }

/-- NEW gc [, seed] (R113). The index is tested before entropy is sampled. -/
def execNew (c : Nat) (seed : Option Word) (s : State) : Result :=
  withContext c s fun _ =>
    let drawn := effectiveSeed seed s
    .next ((drawn.2.setCtx c (seeded drawn.1)).respond (Response.plain .ok))

end Sys2Proof.Machine
end

