-- ==== Sys2Proof/Machine/Range.lean ====
section
/-! DEFINITION. The RANGE unit and the RANGE command (45_range.md), as the small steps of R158. -/

namespace Sys2Proof.Machine

/-- The three values a ranged draw computes before its loop (R152, R153, R154). -/
structure RangeParams where
  range      : Word
  bucketSize : Word
  threshold  : Word
deriving DecidableEq, Repr

/-- `range`, `bucket_size` and `threshold` of the interval [lo, hi); no value when the two are equal, where a division by
zero would be needed (R152 to R154, R19). -/
def rangeParams (lo hi : Word) : Option RangeParams :=
  let range := sub64 hi lo
  match udiv64 randMax range, umod64 randMax range with
  | some bucketSize, some rest => some { range, bucketSize, threshold := sub64 randMax rest }
  | _, _ => none

/-- The value an accepted raw value `r` reduces to (R156). -/
def reduce (lo bucketSize r : Word) : Option Word := (udiv64 r bucketSize).map (add64 lo)

/-- RANGE gc, min, max (R150, R158): the edge policy of R151, else compute the three values and go to DRAWING. -/
def execRange (c : Nat) (lo hi : Word) (s : State) : Result :=
  withGenerator c s fun _ =>
    if lo = hi then .next (s.respond (Response.value lo))
    else if lo > hi then .next (s.respond (Response.value 0#64))
    else
      match rangeParams lo hi with
      | none => .refused .divisionByZero
      | some p =>
        .next { s with
          phase := .drawing
          scratch := { s.scratch with
            ctx := c, minL := lo, range := p.range, bucketSize := p.bucketSize, threshold := p.threshold } }

/-- One pass of the loop in phase DRAWING (R155, R158): one step of the context; a raw value at or above the threshold is
rejected and the phase stays; any other is reduced, and the command ends. -/
def drawPass (s : State) : Result :=
  match s.ctx? s.scratch.ctx with
  | none => .fault .noContext
  | some g =>
    let n := stepWords g.s0 g.s1
    let moved := s.setWords s.scratch.ctx g n.s0 n.s1
    if n.result ≥ s.scratch.threshold then
      .next { moved with scratch := { s.scratch with raw := n.result } }
    else
      match reduce s.scratch.minL s.scratch.bucketSize n.result with
      | none => .refused .divisionByZero
      | some d => .next ((moved.releaseScratch).respond (Response.value d))

end Sys2Proof.Machine
end

