-- ==== Sys2Proof/Machine/Rdmax.lean ====
section
/-! DEFINITION. The RDMAX command (46_rdmax.md). -/

namespace Sys2Proof.Machine

/-- RDMAX (R170). -/
def execRdmax (s : State) : Result := .next (s.respond (Response.value randMax))

end Sys2Proof.Machine
end

