-- ==== Sys2Proof/Machine/Dispatch.lean ====
section
/-! DEFINITION. The meaning of every instruction: one arm for each constructor of Instr. -/

namespace Sys2Proof.Machine

def exec (i : Instr) (s : State) : Host.Outcome State Fault Refusal :=
  match i with
  | .new ctx seed => Sys2Proof.Machine.execNew ctx seed s
  | .copy ctx src => Sys2Proof.Machine.execCopy ctx src s
  | .jump ctx => Sys2Proof.Machine.execJump ctx s
  | .next ctx => Sys2Proof.Machine.execNext ctx s
  | .range ctx min max => Sys2Proof.Machine.execRange ctx min max s
  | .mix n => Sys2Proof.Machine.execMix n s
  | .rdmax => Sys2Proof.Machine.execRdmax s

end Sys2Proof.Machine
end

