-- ==== Sys2Proof/Machine/Step.lean ====
section
/-! DEFINITION. One transition of the sequencer (10_state.md R36, 20_memory.md R52): in IDLE it takes a command and runs it,
in JUMPING and DRAWING it does one pass of the loop. -/

namespace Sys2Proof.Machine

/-- Run a command that was taken: an illegal header ends ERR_ILLEGAL (R78, R181), any other is decoded and executed. -/
def runCommand (c : Command) (s : State) : Host.Outcome State Fault Refusal :=
  match decode c with
  | .error _ => raise .errIllegal s
  | .ok i => exec i s

/-- One transition. In IDLE with no command presented the block waits (R200). -/
def step (s : State) : Host.Outcome State Fault Refusal :=
  match s.phase with
  | .jumping => jumpPass s
  | .drawing => drawPass s
  | .idle =>
    match s.takeCommand with
    | none => .next s
    | some taken => runCommand taken.1 taken.2

/-- `s` with the command of `nbits` bits `w` (every bit from `nbits` up 0) presented next, and the sequencer ready to take it
(log entry 8). -/
def State.withFetchWord (s : State) (nbits w : Nat) : State :=
  { s with phase := .idle, commands := Command.ofNat (w % 2 ^ nbits) :: s.commands }

end Sys2Proof.Machine
end

