-- ==== Sys2Proof/Machine/Assembly.lean ====
section
/-! DEFINITION. The assembly syntax as a printer, the pseudo-instruction FORK, and what a host makes of a program
(30_encoding.md R81 to R85). No instruction's meaning depends on this file. -/

namespace Sys2Proof.Machine

/-- One hexadecimal digit, 0 to 15. -/
def hexDigit (n : Nat) : Char := if n < 10 then Char.ofNat (48 + n) else Char.ofNat (55 + n)

/-- A word in hexadecimal, sixteen digits after 0x (R81; the number of digits is log entry 15). -/
def hexWord (w : Word) : String :=
  "0x" ++ String.ofList ((List.range 16).map fun k => hexDigit (w.toNat / 16 ^ (15 - k) % 16))

/-- A context is written g and its decimal index (R81, R83). -/
def contextName (c : Nat) : String := "g" ++ toString c

/-- The line of assembly of an instruction (R81, R82). -/
def asmLine : Instr → String
  | .new ctx (some seed) => "NEW " ++ contextName ctx ++ ", " ++ hexWord seed
  | .new ctx none => "NEW " ++ contextName ctx
  | .copy ctx src => "COPY " ++ contextName ctx ++ ", " ++ contextName src
  | .jump ctx => "JUMP " ++ contextName ctx
  | .next ctx => "NEXT " ++ contextName ctx
  | .range ctx min max => "RANGE " ++ contextName ctx ++ ", " ++ hexWord min ++ ", " ++ hexWord max
  | .mix n => "MIX " ++ hexWord n
  | .rdmax => "RDMAX"

/-- The name of a status (R180). -/
def Status.name : Status → String
  | .ok => "OK"
  | .errIllegal => "ERR_ILLEGAL"
  | .errReceiver => "ERR_RECEIVER"
  | .errUnseeded => "ERR_UNSEEDED"

/-- A response as it is written after the arrow (R81). -/
def Response.asm (r : Response) : String := r.status.name ++ if r.dv then " D=" ++ hexWord r.data else ""

/-- `FORK gd, gs, k`: COPY and then JUMP k times (R84). -/
def forkExpansion (d src k : Nat) : List Instr := .copy d src :: List.replicate k (.jump d)

/-- `.cmd h, a, b`: the raw command (R84). -/
def rawCommand (h : Header) (a b : Word) : Command := ⟨h, a, b⟩

/-- The commands of a program, in order (R82). -/
def assemble (program : List Instr) : List Command := program.map encode

/-- The bytes of a response: `R`, then `D`, each least significant byte first (20_memory.md R54). -/
def Response.toBytes (r : Response) : List Byte := leBytes 4 r.header.toNat ++ leBytes 8 r.data.toNat

end Sys2Proof.Machine
end

