-- ==== Sys2Proof/Safety.lean ====
section
/-! DEFINITION. What the statements are about: runs of the machine, the invariants of its states, and the part of a state
that a port can show. -/

namespace Sys2Proof.Machine

/-- `n` transitions from `s` end in `t`, none of them stopping. -/
def State.RunsTo (n : Nat) (s t : State) : Prop := Host.Core.run Sys2Proof.core n s = .next t

/-- Instruction `i`, executed in `s`, runs to its end in `t`: the transition that takes it, and for JUMP and RANGE the passes
of the loop, up to the first state in IDLE (R36). -/
def State.Completes (s : State) (i : Instr) (t : State) : Prop :=
  ∃ (n : Nat) (u : State), exec i s = .next u ∧ u.RunsTo n t ∧ t.phase = .idle ∧
    ∀ m : Nat, m < n → ∃ v : State, u.RunsTo m v ∧ v.phase ≠ .idle

/-- A RANGE with the lower bound `sc.minL` is under way: the registers hold what R152, R153 and R154 compute, and the
interval ends below 2^64. -/
structure Scratch.DrawsProperly (sc : Scratch) : Prop where
  range_pos : 0 < sc.range.toNat
  bucket    : sc.bucketSize.toNat = (2 ^ 64 - 1) / sc.range.toNat
  threshold : sc.threshold.toNat = (2 ^ 64 - 1) - (2 ^ 64 - 1) % sc.range.toNat
  fits      : sc.minL.toNat + sc.range.toNat < 2 ^ 64

/-- The invariant of every reachable state: the number of contexts is legal (R6), a running JUMP or RANGE has a generator
(R142, R150), and a running RANGE has proper registers. -/
structure State.Inv (s : State) : Prop where
  nctx_pos : 1 ≤ s.nctx
  nctx_le  : s.nctx ≤ 256
  busy     : s.phase ≠ .idle → ∃ g, s.ctx? s.scratch.ctx = some g ∧ g.valid = true
  drawing  : s.phase = .drawing → s.scratch.DrawsProperly

/-- What the accumulators of a running JUMP will end as, from the state it is in (R142). -/
def State.jumpEnd (s : State) (g : Context) : Word × Word :=
  jumpLoop (128 - s.scratch.iter.toNat) s.scratch.iter.toNat (s.scratch.acc0, s.scratch.acc1) (g.s0, g.s1)

/-- No generator is in the all-zero state (R34), and the JUMP that runs, if one does, will not end in it. -/
structure State.NonDegenerate (s : State) : Prop where
  words   : ∀ c g, s.ctx? c = some g → g.valid = true → (g.s0, g.s1) ≠ (0#64, 0#64)
  jumping : s.phase = .jumping → ∀ g, s.ctx? s.scratch.ctx = some g → s.jumpEnd g ≠ (0#64, 0#64)

/-- Two contexts with the same flag, and with the same words if they hold a generator (U6). -/
def Context.Agrees (g h : Context) : Prop := g.valid = h.valid ∧ (g.valid = true → g = h)

/-- Two states that differ at most in what the spec leaves without a value: the words of contexts that hold no generator
(R43, U6) and the hidden registers that the phase does not use (R37, U7). -/
structure State.Agrees (s t : State) : Prop where
  ctxs      : List.Forall₂ Context.Agrees s.ctxs t.ctxs
  phase     : s.phase = t.phase
  commands  : s.commands = t.commands
  entropy   : s.entropy = t.entropy
  draws     : s.draws = t.draws
  responses : s.responses = t.responses
  jumping   : s.phase = .jumping → s.scratch.ctx = t.scratch.ctx ∧ s.scratch.acc0 = t.scratch.acc0 ∧
    s.scratch.acc1 = t.scratch.acc1 ∧ s.scratch.iter = t.scratch.iter
  drawing   : s.phase = .drawing → s.scratch.ctx = t.scratch.ctx ∧ s.scratch.minL = t.scratch.minL ∧
    s.scratch.bucketSize = t.scratch.bucketSize ∧ s.scratch.threshold = t.scratch.threshold

/-- Context `c` holds a generator whose state words are `w` (R32). -/
abbrev State.Holds (s : State) (c : Nat) (w : Word × Word) : Prop :=
  s.ctx? c = some { s0 := w.1, s1 := w.2, valid := true }

/-- The contexts that an instruction names (R71): the one it acts on, and the source of COPY. -/
def namedContexts : Instr → List Nat
  | .new ctx _ => [ctx]
  | .copy ctx src => [ctx, src]
  | .jump ctx => [ctx]
  | .next ctx => [ctx]
  | .range ctx _ _ => [ctx]
  | .mix _ => []
  | .rdmax => []

/-- The context that an instruction writes, if it writes one (R31). -/
def writtenContext (i : Instr) : Option Nat := (namedContexts i).head?

/-- Executing the instruction samples entropy: a NEW on a context that exists, without a usable seed (R111, R112). -/
def State.Samples (s : State) : Instr → Prop
  | .new ctx seed => ctx < s.nctx ∧ (seed = none ∨ seed = some 0#64)
  | .copy _ _ => False
  | .jump _ => False
  | .next _ => False
  | .range _ _ _ => False
  | .mix _ => False
  | .rdmax => False

/-- The contexts that must hold a generator for the instruction to run (R183). -/
def neededGenerators : Instr → List Nat
  | .new _ _ => []
  | .copy _ src => [src]
  | .jump ctx => [ctx]
  | .next ctx => [ctx]
  | .range ctx _ _ => [ctx]
  | .mix _ => []
  | .rdmax => []

end Sys2Proof.Machine
end

