-- ==== Sys2Proof/Certificates/Slice0/Obligations.lean ====
section
/-! DEFINITION. The statements for the provers, from the numbered rules of spec/. -/

open Sys2Proof Sys2Proof.Machine

/-! ## The arithmetic (00_scope.md R12 to R19) -/

/-- R12 to R14: addition, subtraction and multiplication modulo 2^64, with the examples those rules give. -/
def Obligations.ArithmeticWraps : Prop :=
  (∀ a b : Word, (add64 a b).toNat = (a.toNat + b.toNat) % 2 ^ 64) ∧
  (∀ a b : Word, b.toNat ≤ a.toNat → (sub64 a b).toNat = a.toNat - b.toNat) ∧
  (∀ a b : Word, a.toNat < b.toNat → (sub64 a b).toNat + b.toNat = a.toNat + 2 ^ 64) ∧
  (∀ a b : Word, (mul64 a b).toNat = (a.toNat * b.toNat) % 2 ^ 64) ∧
  add64 0xFFFFFFFFFFFFFFFF#64 1#64 = 0#64 ∧
  sub64 0#64 1#64 = 0xFFFFFFFFFFFFFFFF#64 ∧
  mul64 0xFFFFFFFFFFFFFFFF#64 2#64 = 0xFFFFFFFFFFFFFFFE#64 ∧
  (∀ c : Word, mul64 0#64 c = 0#64)

/-- R16, R17: what each bit of a shift and of a rotation is, for every amount that has a meaning (log entry 12). That
the right shift fills with zeros is the spec's own inference (the end of R16). -/
def Obligations.ShiftAndRotationBits : Prop :=
  ∀ (x : Word) (n : Nat) (h : ShiftAmount n) (i : Nat), i < 64 →
    (shl64 x n h).getLsbD i = (decide (n ≤ i) && x.getLsbD (i - n)) ∧
    (shr64 x n h).getLsbD i = x.getLsbD (i + n) ∧
    (rotl64 x n h).getLsbD i = x.getLsbD ((i + (64 - n)) % 64)

/-- R18, R19: quotient and remainder have a value exactly where the divisor is not 0, and that value is the truncating
division's. Both rest on the spec's own inferences (marked so in R18 and R19) and on log entry 10. -/
def Obligations.DivisionByNonzeroOnly : Prop :=
  (∀ a b : Word, b ≠ 0#64 → ∃ q r : Word, udiv64 a b = some q ∧ umod64 a b = some r ∧
    q.toNat = a.toNat / b.toNat ∧ r.toNat < b.toNat ∧ a.toNat = b.toNat * q.toNat + r.toNat) ∧
  (∀ a : Word, udiv64 a 0#64 = none ∧ umod64 a 0#64 = none)

/-! ## The MIX unit (40_mix_splitmix64.md) -/

/-- R101: the four lines of `MIX`, in the library's 64-bit operations. -/
def Obligations.MixIsFourLines : Prop :=
  ∀ n : Word,
    let t1 := n + 0x9E3779B97F4A7C15#64
    let t2 := (t1 ^^^ (t1 >>> 30)) * 0xBF58476D1CE4E5B9#64
    let t3 := (t2 ^^^ (t2 >>> 27)) * 0x94D049BB133111EB#64
    mixWord n = t3 ^^^ (t3 >>> 31)

/-- The table of corner cases of R103, which the spec derives from R101; the known answer of R102 is its first row. -/
def Obligations.MixCornerCases : Prop :=
  mixWord 0x0000000000000000#64 = 0xE220A8397B1DCDAF#64 ∧
  mixWord 0x0000000000000001#64 = 0x910A2DEC89025CC1#64 ∧
  mixWord 0x000000000000002A#64 = 0xBDD732262FEB6E95#64 ∧
  mixWord 0xFFFFFFFFFFFFFFFF#64 = 0xE4D971771B652C20#64 ∧
  mixWord 0x61C8864680B583EB#64 = 0x0000000000000000#64

/-- R100, R170: MIX and RDMAX always complete, and change nothing but the response. -/
def Obligations.PureCommandsComplete : Prop :=
  ∀ s : State,
    (∀ n : Word, exec (.mix n) s =
      .next { s with phase := .idle, responses := s.responses ++ [⟨.ok, true, mixWord n⟩] }) ∧
    exec .rdmax s =
      .next { s with phase := .idle, responses := s.responses ++ [⟨.ok, true, 0xFFFFFFFFFFFFFFFF#64⟩] }

/-- R100, R170: a command whose opcode is MIX or RDMAX, from its header to its response: any bit below bit 24 makes it
illegal. -/
def Obligations.PureCommands : Prop :=
  ∀ (c : Command) (s : State),
    (opcodeField c.h = 6 → runCommand c s =
      if c.h ≠ 0x06000000#32 then
        .next { s with phase := .idle, responses := s.responses ++ [⟨.errIllegal, false, 0#64⟩] }
      else .next { s with phase := .idle, responses := s.responses ++ [⟨.ok, true, mixWord c.a⟩] }) ∧
    (opcodeField c.h = 7 → runCommand c s =
      if c.h ≠ 0x07000000#32 then
        .next { s with phase := .idle, responses := s.responses ++ [⟨.errIllegal, false, 0#64⟩] }
      else .next { s with phase := .idle, responses := s.responses ++ [⟨.ok, true, 0xFFFFFFFFFFFFFFFF#64⟩] })

/-! ## The STEP unit (43_next_step.md) -/

/-- R131: `STEP` in the library's 64-bit operations. -/
def Obligations.StepFormula : Prop :=
  ∀ s0 s1 : Word,
    let x := s1 ^^^ s0
    stepWords s0 s1 =
      { result := s0 + s1, s0 := s0.rotateLeft 55 ^^^ x ^^^ (x <<< 14), s1 := x.rotateLeft 36 }

/-- R133, which the spec derives from R131 and R17: the new words bit by bit, and that the step map is linear over
GF(2) while the output is not. -/
def Obligations.StepBitByBit : Prop :=
  (∀ (s0 s1 : Word) (i : Nat), i < 64 →
    let x := fun k : Nat => s0.getLsbD k ^^ s1.getLsbD k
    (stepWords s0 s1).s0.getLsbD i =
      ((s0.getLsbD ((i + 9) % 64) ^^ x i) ^^ (if 14 ≤ i then x (i - 14) else false)) ∧
    (stepWords s0 s1).s1.getLsbD i = x ((i + 28) % 64)) ∧
  (∀ a b : Word × Word,
    stepMap (a.1 ^^^ b.1, a.2 ^^^ b.2) =
      ((stepMap a).1 ^^^ (stepMap b).1, (stepMap a).2 ^^^ (stepMap b).2)) ∧
  (∃ a b : Word × Word, stepOutput (a.1 ^^^ b.1, a.2 ^^^ b.2) ≠ stepOutput a ^^^ stepOutput b)

/-- R135 (a) and R34, which the spec derives from R131: the step map is a bijection of the 2^128 states, and only the
all-zero state goes to the all-zero state. -/
def Obligations.StepMapIsBijective : Prop :=
  Function.Bijective stepMap ∧ ∀ w : Word × Word, stepMap w = (0#64, 0#64) ↔ w = (0#64, 0#64)

/-- The table of corner cases of `STEP` in R134, which the spec derives from R131. -/
def Obligations.StepCornerCases : Prop :=
  stepWords 0#64 0#64 = ⟨0#64, 0#64, 0#64⟩ ∧
  stepWords 1#64 2#64 = ⟨3#64, 0x008000000000C003#64, 0x0000003000000000#64⟩ ∧
  stepWords 0xFFFFFFFFFFFFFFFF#64 0xFFFFFFFFFFFFFFFF#64 = ⟨0xFFFFFFFFFFFFFFFE#64, 0xFFFFFFFFFFFFFFFF#64, 0#64⟩ ∧
  stepWords 0xFFFFFFFFFFFFFFFF#64 1#64 = ⟨0#64, 0xFFFFFFFFFFFF8001#64, 0xFFFFFFEFFFFFFFFF#64⟩ ∧
  stepWords 0x8000000000000000#64 0x8000000000000000#64 = ⟨0#64, 0x0040000000000000#64, 0#64⟩ ∧
  stepWords 0x8000000000000001#64 0#64 = ⟨0x8000000000000001#64, 0x80C0000000004001#64, 0x0000001800000000#64⟩ ∧
  stepWords 0#64 0x8000000000000001#64 = ⟨0x8000000000000001#64, 0x8000000000004001#64, 0x0000001800000000#64⟩

/-- R132, with the frame: NEXT on a generator answers the output of the step, writes both words of that context,
releases the hidden registers (log entry 4), and changes nothing else. -/
def Obligations.NextCompletes : Prop :=
  ∀ (s : State) (c : Nat) (w : Word × Word), s.Holds c w →
    exec (.next c) s =
      .next { s with
        phase := .idle
        ctxs := s.ctxs.set c ⟨(stepWords w.1 w.2).s0, (stepWords w.1 w.2).s1, true⟩
        scratch := Config.releasedScratch s.releases
        releases := s.releases + 1
        responses := s.responses ++ [⟨.ok, true, (stepWords w.1 w.2).result⟩] }

/-- R132: a command whose opcode is NEXT, from its header to its response. What it leaves in the hidden registers is
not said (R37). -/
def Obligations.NextCommand : Prop :=
  ∀ (c : Command) (s : State), opcodeField c.h = 4 →
    ((srcField c.h ≠ 0 ∨ zeroField c.h ≠ 0 ∨ spBit c.h = true) →
      runCommand c s =
        .next { s with phase := .idle, responses := s.responses ++ [⟨.errIllegal, false, 0#64⟩] }) ∧
    (¬ (srcField c.h ≠ 0 ∨ zeroField c.h ≠ 0 ∨ spBit c.h = true) →
      (s.ctx? (ctxField c.h) = none →
        runCommand c s =
          .next { s with phase := .idle, responses := s.responses ++ [⟨.errReceiver, false, 0#64⟩] }) ∧
      (∀ g : Context, s.ctx? (ctxField c.h) = some g → g.valid = false →
        runCommand c s =
          .next { s with phase := .idle, responses := s.responses ++ [⟨.errUnseeded, false, 0#64⟩] }) ∧
      (∀ g : Context, s.ctx? (ctxField c.h) = some g → g.valid = true →
        ∃ (hidden : Scratch) (n : Nat), runCommand c s =
          .next { s with
            phase := .idle
            ctxs := s.ctxs.set (ctxField c.h) ⟨(stepWords g.s0 g.s1).s0, (stepWords g.s0 g.s1).s1, true⟩
            scratch := hidden
            releases := n
            responses := s.responses ++ [⟨.ok, true, g.s0 + g.s1⟩] }))

/-- R130, R58: NEXT commands presented one after the other answer the successive outputs of the step map, and leave
the context that many steps on and every other context as it was. -/
def Obligations.NextsDrawTheStream : Prop :=
  ∀ (k : Nat) (s : State) (c : Nat) (w : Word × Word) (rest : List Command),
    s.phase = .idle → c < 256 → s.Holds c w → s.commands = List.replicate k (encode (.next c)) ++ rest →
    ∃ u : State, s.RunsTo k u ∧ u.phase = .idle ∧ u.commands = rest ∧ u.Holds c (stepMap^[k] w) ∧
      u.responses = s.responses ++ (List.range k).map (fun j => ⟨.ok, true, stepOutput (stepMap^[j] w)⟩) ∧
      ∀ d : Nat, d ≠ c → u.ctx? d = s.ctx? d

/-! ## Construction and copy (41_new_construction.md, 42_copy.md) -/

/-- R113, R111, with the frame: NEW with a nonzero seed. -/
def Obligations.NewFromSeedCompletes : Prop :=
  ∀ (s : State) (c : Nat) (a : Word), c < s.nctx → a ≠ 0#64 →
    exec (.new c (some a)) s =
      .next { s with
        phase := .idle
        ctxs := s.ctxs.set c ⟨mixWord a, a, true⟩
        responses := s.responses ++ [⟨.ok, false, 0#64⟩] }

/-- R113, R111, R112, with the frame: NEW without a usable seed takes one draw, scripted (first clause) or free
(second; log entry 5). -/
def Obligations.NewFromDrawCompletes : Prop :=
  ∀ (s : State) (c : Nat) (seed : Option Word), c < s.nctx → seed = none ∨ seed = some 0#64 →
    (∀ (e : Word) (rest : List Word), s.entropy = e :: rest →
      exec (.new c seed) s =
        .next { s with
          phase := .idle
          ctxs := s.ctxs.set c ⟨mixWord e, e, true⟩
          entropy := rest
          responses := s.responses ++ [⟨.ok, false, 0#64⟩] }) ∧
    (s.entropy = [] →
      exec (.new c seed) s =
        .next { s with
          phase := .idle
          ctxs := s.ctxs.set c ⟨mixWord (Config.entropy s.draws), Config.entropy s.draws, true⟩
          draws := s.draws + 1
          responses := s.responses ++ [⟨.ok, false, 0#64⟩] })

/-- R111, R113: a command whose opcode is NEW, from its header to its response. Where the draw comes from (the value the
environment has set next on the model's list, if it has set one) is the model's choice (log entry 5). -/
def Obligations.NewCommand : Prop :=
  ∀ (c : Command) (s : State), opcodeField c.h = 1 →
    ((srcField c.h ≠ 0 ∨ zeroField c.h ≠ 0) →
      runCommand c s =
        .next { s with phase := .idle, responses := s.responses ++ [⟨.errIllegal, false, 0#64⟩] }) ∧
    (¬ (srcField c.h ≠ 0 ∨ zeroField c.h ≠ 0) →
      (s.nctx ≤ ctxField c.h →
        runCommand c s =
          .next { s with phase := .idle, responses := s.responses ++ [⟨.errReceiver, false, 0#64⟩] }) ∧
      (ctxField c.h < s.nctx → spBit c.h = true ∧ c.a ≠ 0#64 →
        runCommand c s =
          .next { s with
            phase := .idle
            ctxs := s.ctxs.set (ctxField c.h) ⟨mixWord c.a, c.a, true⟩
            responses := s.responses ++ [⟨.ok, false, 0#64⟩] }) ∧
      (ctxField c.h < s.nctx → ¬ (spBit c.h = true ∧ c.a ≠ 0#64) →
        ∃ (e : Word) (rest : List Word) (n : Nat), (s.entropy = e :: rest ∨ (s.entropy = [] ∧ rest = [])) ∧
          runCommand c s =
            .next { s with
              phase := .idle
              ctxs := s.ctxs.set (ctxField c.h) ⟨mixWord e, e, true⟩
              entropy := rest
              draws := n
              responses := s.responses ++ [⟨.ok, false, 0#64⟩] }))

/-- R115, which the spec derives from R113 and R131: the outputs after a construction from a nonzero seed depend on
the seed alone, whatever the context, the state and the time. -/
def Obligations.SeedFixesTheStream : Prop :=
  ∀ (k : Nat) (s : State) (c : Nat) (a : Word) (rest : List Command),
    s.phase = .idle → c < 256 → c < s.nctx → a ≠ 0#64 →
    s.commands = encode (.new c (some a)) :: (List.replicate k (encode (.next c)) ++ rest) →
    ∃ u : State, s.RunsTo (k + 1) u ∧ u.commands = rest ∧
      u.responses = s.responses ++ ⟨.ok, false, 0#64⟩ ::
        (List.range k).map (fun j => ⟨.ok, true, stepOutput (stepMap^[j] (mixWord a, a))⟩)

/-- R121, with the frame: COPY from a generator onto any context there is. -/
def Obligations.CopyCompletes : Prop :=
  ∀ (s : State) (d src : Nat) (w : Word × Word), d < s.nctx → s.Holds src w →
    exec (.copy d src) s =
      .next { s with
        phase := .idle
        ctxs := s.ctxs.set d ⟨w.1, w.2, true⟩
        responses := s.responses ++ [⟨.ok, false, 0#64⟩] }

/-- R121: a command whose opcode is COPY, from its header to its response. -/
def Obligations.CopyCommand : Prop :=
  ∀ (c : Command) (s : State), opcodeField c.h = 2 →
    runCommand c s =
      if zeroField c.h ≠ 0 ∨ spBit c.h = true then
        .next { s with phase := .idle, responses := s.responses ++ [⟨.errIllegal, false, 0#64⟩] }
      else if s.nctx ≤ ctxField c.h then
        .next { s with phase := .idle, responses := s.responses ++ [⟨.errReceiver, false, 0#64⟩] }
      else
        match s.ctx? (srcField c.h) with
        | none => .next { s with phase := .idle, responses := s.responses ++ [⟨.errReceiver, false, 0#64⟩] }
        | some g =>
          if g.valid = false then
            .next { s with phase := .idle, responses := s.responses ++ [⟨.errUnseeded, false, 0#64⟩] }
          else
            .next { s with
              phase := .idle
              ctxs := s.ctxs.set (ctxField c.h) ⟨g.s0, g.s1, true⟩
              responses := s.responses ++ [⟨.ok, false, 0#64⟩] }

/-- R122 and R123, which the spec derives from R121, R132 and R33: after a copy both contexts hold the source's words and the
first NEXT on either answers the same; of two different contexts each keeps its words through every complete command that
does not write it; and a copy onto itself changes no context. -/
def Obligations.CopyIsTheSameStream : Prop :=
  ∀ (s : State) (d src : Nat) (w : Word × Word), d < s.nctx → s.Holds src w →
    ∃ t u v : State, exec (.copy d src) s = .next t ∧ t.Holds d w ∧ t.Holds src w ∧
      exec (.next d) t = .next u ∧ exec (.next src) t = .next v ∧ u.responses = v.responses ∧
      (d ≠ src → u.Holds src w ∧ v.Holds d w) ∧ (d = src → t.ctxs = s.ctxs) ∧
      (d ≠ src → ∀ (i : Instr) (x : State), t.Completes i x →
        (writtenContext i ≠ some src → x.Holds src w) ∧ (writtenContext i ≠ some d → x.Holds d w))

/-! ## The JUMP unit (44_jump.md) -/

/-- R141: which bits the 128 iterations look at: how many are 1, and the first eight of each constant. -/
def Obligations.JumpBitCounts : Prop :=
  ((List.range 64).filter jumpBit).length = 37 ∧
  ((List.range' 64 64).filter jumpBit).length = 27 ∧
  (List.range' 0 8).map jumpBit = [true, true, false, true, false, false, true, true] ∧
  (List.range' 64 8).map jumpBit = [false, true, false, false, false, true, false, false] ∧
  ∀ k : Nat, k < 128 →
    jumpBit k = (if k / 64 = 0 then 0xBEAC0467EBA5FACB#64 else 0xD86B048B86AA9922#64).getLsbD (k % 64)

/-- R143, which the spec derives from R142: the closed form. The words after a jump are the exclusive or of the states
after k steps, over the k from 0 to 127 whose bit is 1. -/
def Obligations.JumpClosedForm : Prop :=
  ∀ w : Word × Word,
    jumpWords w =
      ((List.range 128).filter jumpBit).foldl
        (fun acc k => (acc.1 ^^^ (stepMap^[k] w).1, acc.2 ^^^ (stepMap^[k] w).2)) (0#64, 0#64)

/-- R142, and R144, which the spec derives from it, with the frame: JUMP on a generator goes to JUMPING(0); 128 passes later,
and not before, the block is in IDLE, the context holds the words of the closed form, and the response carries no value.
The model's own: that JUMP runs in passes (log entry 1), that the register `Scratch.ctx` latches the context index (log entry
9), and that the hidden registers are released at the end (log entry 4). -/
def Obligations.JumpCompletesIn128Passes : Prop :=
  ∀ (s : State) (c : Nat) (w : Word × Word), s.Holds c w →
    ∃ t u : State, exec (.jump c) s = .next t ∧ t.RunsTo 128 u ∧
      t = { s with
        phase := .jumping
        scratch := { s.scratch with ctx := c, acc0 := 0#64, acc1 := 0#64, iter := 0#7 } } ∧
      u = { s with
        phase := .idle
        ctxs := s.ctxs.set c ⟨(jumpWords w).1, (jumpWords w).2, true⟩
        scratch := Config.releasedScratch s.releases
        releases := s.releases + 1
        responses := s.responses ++ [⟨.ok, false, 0#64⟩] } ∧
      ∀ n : Nat, n < 128 → ∃ v : State, t.RunsTo n v ∧ v.phase = .jumping ∧ v.scratch.iter.toNat = n ∧
        v.Holds c (stepMap^[n] w) ∧ v.responses = s.responses ∧ v.commands = s.commands

/-- R142: a command whose opcode is JUMP, from its header to its response. `jumpLoop` is the loop of R142, iteration by
iteration. That it takes 128 transitions more is R144, which the spec derives from R142, and the choice of log entry 1; what
the command leaves in the hidden registers is not said (R37). -/
def Obligations.JumpCommand : Prop :=
  ∀ (c : Command) (s : State), opcodeField c.h = 3 →
    ((srcField c.h ≠ 0 ∨ zeroField c.h ≠ 0 ∨ spBit c.h = true) →
      runCommand c s =
        .next { s with phase := .idle, responses := s.responses ++ [⟨.errIllegal, false, 0#64⟩] }) ∧
    (¬ (srcField c.h ≠ 0 ∨ zeroField c.h ≠ 0 ∨ spBit c.h = true) →
      (s.ctx? (ctxField c.h) = none →
        runCommand c s =
          .next { s with phase := .idle, responses := s.responses ++ [⟨.errReceiver, false, 0#64⟩] }) ∧
      (∀ g : Context, s.ctx? (ctxField c.h) = some g → g.valid = false →
        runCommand c s =
          .next { s with phase := .idle, responses := s.responses ++ [⟨.errUnseeded, false, 0#64⟩] }) ∧
      (∀ g : Context, s.ctx? (ctxField c.h) = some g → g.valid = true →
        ∃ (t u : State) (hidden : Scratch) (n : Nat), runCommand c s = .next t ∧ t.RunsTo 128 u ∧
          u = { s with
            phase := .idle
            ctxs := s.ctxs.set (ctxField c.h)
              ⟨(jumpLoop 128 0 (0#64, 0#64) (g.s0, g.s1)).1, (jumpLoop 128 0 (0#64, 0#64) (g.s0, g.s1)).2, true⟩
            scratch := hidden
            releases := n
            responses := s.responses ++ [⟨.ok, false, 0#64⟩] }))

/-- R146, which the spec derives from R142: the jump is linear over GF(2), with five rows of the table; and, as
95_test_vectors.md 2.5 asks, a jump and a step can be taken in either order. -/
def Obligations.JumpIsLinear : Prop :=
  (∀ a b : Word × Word,
    jumpWords (a.1 ^^^ b.1, a.2 ^^^ b.2) =
      ((jumpWords a).1 ^^^ (jumpWords b).1, (jumpWords a).2 ^^^ (jumpWords b).2)) ∧
  (∀ w : Word × Word, jumpWords (stepMap w) = stepMap (jumpWords w)) ∧
  jumpWords (0#64, 0#64) = (0#64, 0#64) ∧
  jumpWords (1#64, 0#64) = (0x966F5509BB41F421#64, 0x5FCD7CB640A13B03#64) ∧
  jumpWords (0#64, 1#64) = (0x94076D025B6CDEE7#64, 0xE250BA88D01F5FDB#64) ∧
  jumpWords (1#64, 2#64) = (0x814146B67B285F30#64, 0x7F6FF236623B4E25#64) ∧
  jumpWords (0xFFFFFFFFFFFFFFFF#64, 0xFFFFFFFFFFFFFFFF#64) = (0x5018527E252234EF#64, 0x5AD33C8C576A9786#64)

/-- R140: a jump leaves exactly the state that 2^64 steps would leave; the check is the spec's own ("The check is this
spec's, not the document's"). -/
def Obligations.JumpIsTwoToThe64Steps : Prop :=
  ∀ w : Word × Word, jumpWords w = stepMap^[2 ^ 64] w

/-- R84, and R207, which the spec derives from R142 and R121: FORK gd, gs, k makes the k-th stream: the destination, the source
itself included, holds the source's words jumped k times, and every other context is as it was. That it takes 1 + 129 k
transitions is R144, which the spec derives from R142, and the choice of log entry 1. -/
def Obligations.ForkMakesTheKthStream : Prop :=
  ∀ (k : Nat) (s : State) (d src : Nat) (w : Word × Word) (rest : List Command),
    s.phase = .idle → d < 256 → src < 256 → d < s.nctx → s.Holds src w →
    s.commands = assemble (forkExpansion d src k) ++ rest →
    ∃ u : State, s.RunsTo (1 + 129 * k) u ∧ u.phase = .idle ∧ u.commands = rest ∧
      u.Holds d (jumpWords^[k] w) ∧ (d ≠ src → u.Holds src w) ∧ (∀ e : Nat, e ≠ d → u.ctx? e = s.ctx? e) ∧
      u.responses = s.responses ++ List.replicate (k + 1) ⟨.ok, false, 0#64⟩

/-! ## The RANGE unit (45_range.md) -/

/-- R151, with the frame: the edge policy. -/
def Obligations.RangeEdgePolicy : Prop :=
  ∀ (s : State) (c : Nat) (w : Word × Word) (lo hi : Word), s.Holds c w →
    (lo = hi → exec (.range c lo hi) s =
      .next { s with phase := .idle, responses := s.responses ++ [⟨.ok, true, lo⟩] }) ∧
    (hi.toNat < lo.toNat → exec (.range c lo hi) s =
      .next { s with phase := .idle, responses := s.responses ++ [⟨.ok, true, 0#64⟩] })

/-- R152, R154, and R153, which the spec derives from R18, R152 and R154: what the three values are, that the
threshold is their product, and how large each is. -/
def Obligations.RangeParameters : Prop :=
  ∀ lo hi : Word, lo.toNat < hi.toNat →
    ∃ p : RangeParams, rangeParams lo hi = some p ∧
      p.range.toNat = hi.toNat - lo.toNat ∧ 1 ≤ p.range.toNat ∧
      p.bucketSize.toNat = (2 ^ 64 - 1) / p.range.toNat ∧ 1 ≤ p.bucketSize.toNat ∧
      p.threshold.toNat = (2 ^ 64 - 1) - (2 ^ 64 - 1) % p.range.toNat ∧
      p.threshold.toNat = p.range.toNat * p.bucketSize.toNat ∧
      1 ≤ p.threshold.toNat ∧ 2 ^ 63 ≤ p.threshold.toNat

/-- R156, which the spec derives from R153 and R18: an accepted raw value reduces to a value in [min, max), and the
addition does not wrap. -/
def Obligations.ReducedValueIsInInterval : Prop :=
  ∀ (lo hi r : Word) (p : RangeParams), lo.toNat < hi.toNat → rangeParams lo hi = some p →
    r.toNat < p.threshold.toNat →
    ∃ d : Word, reduce lo p.bucketSize r = some d ∧ d.toNat = lo.toNat + r.toNat / p.bucketSize.toNat ∧
      lo.toNat ≤ d.toNat ∧ d.toNat < hi.toNat

/-- R157, which the spec derives from R154 to R156, and R155: every result has the same number of raw values,
bucket_size of them in a row, and the rejected ones are `RAND_MAX mod range + 1`, at least 1 and at most 2^63. -/
def Obligations.BucketsAreEqual : Prop :=
  ∀ (lo hi : Word) (p : RangeParams), lo.toNat < hi.toNat → rangeParams lo hi = some p →
    (∀ (q : Nat) (r : Word), q < p.range.toNat →
      ((r.toNat < p.threshold.toNat ∧ reduce lo p.bucketSize r = some (BitVec.ofNat 64 (lo.toNat + q))) ↔
        (q * p.bucketSize.toNat ≤ r.toNat ∧ r.toNat < (q + 1) * p.bucketSize.toNat))) ∧
    2 ^ 64 - p.threshold.toNat = (2 ^ 64 - 1) % p.range.toNat + 1 ∧
    1 ≤ 2 ^ 64 - p.threshold.toNat ∧ 2 ^ 64 - p.threshold.toNat ≤ 2 ^ 63

/-- R158, with the frame: a RANGE with min < max on a generator goes to DRAWING with the three values and min kept, and takes
no step yet. The model's own: that RANGE runs in passes (log entry 1), and that the register `Scratch.ctx`, which R37 does
not list, latches the context index (log entry 9). -/
def Obligations.RangeStartsDrawing : Prop :=
  ∀ (s : State) (c : Nat) (w : Word × Word) (lo hi : Word), s.Holds c w → lo.toNat < hi.toNat →
    ∃ p : RangeParams, rangeParams lo hi = some p ∧
      exec (.range c lo hi) s =
        .next { s with
          phase := .drawing
          scratch := { s.scratch with
            ctx := c, minL := lo, range := p.range, bucketSize := p.bucketSize, threshold := p.threshold } }

/-- R150, R155, R158, and R156, which the spec derives from R153, with the frame: a RANGE with min < max whose first n raw
values are rejected and whose next is not answers, n + 1 passes after it was taken, the reduction of that raw value, and
leaves the context n + 1 steps on and everything else as it was. The model's own: that RANGE runs in passes (log entry 1), and
that the hidden registers are released at the end (log entry 4). -/
def Obligations.RangeCompletesAtFirstAccepted : Prop :=
  ∀ (s : State) (c : Nat) (w : Word × Word) (lo hi : Word) (p : RangeParams) (n : Nat),
    s.Holds c w → lo.toNat < hi.toNat → rangeParams lo hi = some p →
    (∀ k : Nat, k < n → p.threshold.toNat ≤ (stepOutput (stepMap^[k] w)).toNat) →
    (stepOutput (stepMap^[n] w)).toNat < p.threshold.toNat →
    ∃ t u : State, exec (.range c lo hi) s = .next t ∧ t.RunsTo (n + 1) u ∧
      u = { s with
        phase := .idle
        ctxs := s.ctxs.set c ⟨(stepMap^[n + 1] w).1, (stepMap^[n + 1] w).2, true⟩
        scratch := Config.releasedScratch s.releases
        releases := s.releases + 1
        responses := s.responses ++
          [⟨.ok, true, BitVec.ofNat 64 (lo.toNat + (stepOutput (stepMap^[n] w)).toNat / p.bucketSize.toNat)⟩] } ∧
      ∀ m : Nat, m ≤ n → ∃ v : State, t.RunsTo m v ∧ v.phase = .drawing ∧ v.responses = s.responses ∧
        v.commands = s.commands

/-- R150 and R158: a command whose opcode is RANGE, up to its edge policy or its entry into the loop. The model's own: that the
loop runs in passes (log entry 1), and that the register `Scratch.ctx`, which R37 does not list, latches the context index
(log entry 9). -/
def Obligations.RangeCommand : Prop :=
  ∀ (c : Command) (s : State), opcodeField c.h = 5 →
    runCommand c s =
      if srcField c.h ≠ 0 ∨ zeroField c.h ≠ 0 ∨ spBit c.h = true then
        .next { s with phase := .idle, responses := s.responses ++ [⟨.errIllegal, false, 0#64⟩] }
      else
        match s.ctx? (ctxField c.h) with
        | none => .next { s with phase := .idle, responses := s.responses ++ [⟨.errReceiver, false, 0#64⟩] }
        | some g =>
          if g.valid = false then
            .next { s with phase := .idle, responses := s.responses ++ [⟨.errUnseeded, false, 0#64⟩] }
          else if c.a = c.b then
            .next { s with phase := .idle, responses := s.responses ++ [⟨.ok, true, c.a⟩] }
          else if c.b < c.a then
            .next { s with phase := .idle, responses := s.responses ++ [⟨.ok, true, 0#64⟩] }
          else
            .next { s with
              phase := .drawing
              scratch := { s.scratch with
                ctx := ctxField c.h, minL := c.a, range := c.b - c.a
                bucketSize := 0xFFFFFFFFFFFFFFFF#64 / (c.b - c.a)
                threshold := 0xFFFFFFFFFFFFFFFF#64 - 0xFFFFFFFFFFFFFFFF#64 % (c.b - c.a) } }

/-- R159 and R215, which the spec derives from R135, R153 and R155: every RANGE on a generator with min < max ends, with a value
of the interval. That it runs in passes is the choice of log entry 1. -/
def Obligations.EveryRangeEnds : Prop :=
  ∀ (s : State) (c : Nat) (w : Word × Word) (lo hi : Word), s.Holds c w → lo.toNat < hi.toNat →
    ∃ (n : Nat) (t u : State) (d : Word), exec (.range c lo hi) s = .next t ∧ t.RunsTo (n + 1) u ∧ u.phase = .idle ∧
      u.responses = s.responses ++ [⟨.ok, true, d⟩] ∧ lo.toNat ≤ d.toNat ∧ d.toNat < hi.toNat

/-! ## Encoding (30_encoding.md) -/

/-- R71, R76, R82: decoding the encoding of a well-formed instruction gives it back, every operand at every value. -/
def Obligations.DecodeOfEncode : Prop :=
  ∀ i : Instr, WellFormed i → decode (encode i) = .ok i

/-- The other direction: a decoded instruction is well formed, and encodes to the header it was decoded from and to
the operand words it uses, an ignored word becoming 0 (R72, R82). -/
def Obligations.EncodeOfDecode : Prop :=
  ∀ (c : Command) (i : Instr), decode c = .ok i →
    WellFormed i ∧ (encode i).h = c.h ∧
    ((encode i).a = c.a ∨ (encode i).a = 0#64) ∧ ((encode i).b = c.b ∨ (encode i).b = 0#64) ∧
    decode ⟨c.h, (encode i).a, (encode i).b⟩ = .ok i

/-- R77, which the spec derives from R76: no header matches two rows; a command decodes exactly when its header
matches a row, and then to that row's operation. -/
def Obligations.DecodingIsUnambiguous : Prop :=
  ∀ c : Command,
    (∀ r ∈ opcodeTable, ∀ r' ∈ opcodeTable, r.selects c.h = true → r'.selects c.h = true → r = r') ∧
    ((∃ i : Instr, decode c = .ok i) ↔ ∃ r ∈ opcodeTable, r.selects c.h = true) ∧
    (∀ r ∈ opcodeTable, r.selects c.h = true → decode c = .ok (r.opcode.instr c))

/-- R78, R181: which headers are illegal, by their fields, and what a command with one does: it answers ERR_ILLEGAL
and changes nothing, the entropy port included. -/
def Obligations.IllegalHeadersDoNothing : Prop :=
  ∀ (c : Command) (s : State),
    ((∃ e : DecodeError, decode c = .error e) ↔
      (opcodeField c.h = 0 ∨ 8 ≤ opcodeField c.h ∨ zeroField c.h ≠ 0 ∨
        (spBit c.h = true ∧ opcodeField c.h ≠ 1) ∨ (srcField c.h ≠ 0 ∧ opcodeField c.h ≠ 2) ∨
        (ctxField c.h ≠ 0 ∧ (opcodeField c.h = 6 ∨ opcodeField c.h = 7)))) ∧
    ((∃ e : DecodeError, decode c = .error e) →
      runCommand c s =
        .next { s with phase := .idle, responses := s.responses ++ [⟨.errIllegal, false, 0#64⟩] })

/-- R72: the operand words a command ignores do not matter, and those it uses are its operands. -/
def Obligations.IgnoredWordsDoNotMatter : Prop :=
  ∀ (h : Header) (a b a' b' : Word) (i : Instr), decode ⟨h, a, b⟩ = .ok i →
    decode ⟨h, a', b'⟩ = .ok
      (match i with
        | .new ctx (some _) => .new ctx (some a')
        | .range ctx _ _ => .range ctx a' b'
        | .mix _ => .mix a'
        | other => other)

/-- Words written out from R82 and 95_test_vectors.md decode to the instructions they stand for, one of each
operation. -/
def Obligations.SpecWordsDecode : Prop :=
  decode ⟨0x01030001#32, 0x2A#64, 0#64⟩ = .ok (.new 3 (some 0x2A#64)) ∧
  decode ⟨0x01000000#32, 0x1234#64, 0#64⟩ = .ok (.new 0 none) ∧
  decode ⟨0x02010700#32, 0#64, 0#64⟩ = .ok (.copy 1 7) ∧
  decode ⟨0x03C80000#32, 0#64, 0#64⟩ = .ok (.jump 200) ∧
  decode ⟨0x04090000#32, 0#64, 0#64⟩ = .ok (.next 9) ∧
  decode ⟨0x05000000#32, 0xA#64, 0x14#64⟩ = .ok (.range 0 0xA#64 0x14#64) ∧
  decode ⟨0x06000000#32, 0x7#64, 0#64⟩ = .ok (.mix 0x7#64) ∧
  decode ⟨0x07000000#32, 0#64, 0#64⟩ = .ok .rdmax ∧
  decode ⟨0x04090002#32, 0#64, 0#64⟩ = .error (.mustBeZero "NEXT") ∧
  decode ⟨0x08000000#32, 0#64, 0#64⟩ = .error (.unknownOpcode 8)

/-- R70, R71, R54: a header is the sum of its fields in their places; the 160-bit value of a command and its twenty
bytes each give the command back; and a byte string that begins with a command decodes as that command does. -/
def Obligations.CommandBitsAndBytesRoundTrip : Prop :=
  ∀ (c : Command) (rest : List Byte),
    c.h.toNat = opcodeField c.h * 2 ^ 24 + ctxField c.h * 2 ^ 16 + srcField c.h * 2 ^ 8 + zeroField c.h * 2 +
      (spBit c.h).toNat ∧
    c.bits.extractLsb' 0 32 = c.h ∧ c.bits.extractLsb' 32 64 = c.a ∧ c.bits.extractLsb' 96 64 = c.b ∧
    Command.ofNat c.bits.toNat = c ∧ c.toBytes.length = 20 ∧
    decodeBytes (c.toBytes ++ rest) = (decode c).map (fun i => (i, rest))

/-- R74, R75: the header of a response, and that a step presents no response but the five kinds R75 lists, with `D` =
0 wherever `dv` = 0. -/
def Obligations.ResponsesAreOfFiveKinds : Prop :=
  (∀ r : Response, r.header.toNat = (if r.dv then 256 else 0) + r.status.code.toNat) ∧
  ∀ s t : State, step s = .next t →
    t.responses = s.responses ∨
    ∃ r : Response, t.responses = s.responses ++ [r] ∧
      r.header ∈ [0x00000000#32, 0x00000100#32, 0x00000001#32, 0x00000002#32, 0x00000003#32] ∧
      (r.dv = false → r.data = 0#64)

/-! ## Errors (60_exceptions.md) -/

/-- R182, R183, R184, R186: how every instruction ends: ERR_RECEIVER if it names a context that does not exist, else
ERR_UNSEEDED if a context it needs holds no generator, else without an error: OK at once, or in the loop of JUMP or RANGE.
That loop is R158, and R144, which the spec derives from R142, by the choice of log entry 1. -/
def Obligations.StatusOfEveryInstruction : Prop :=
  ∀ (i : Instr) (s : State),
    ((∃ c ∈ namedContexts i, s.nctx ≤ c) →
      exec i s = .next { s with phase := .idle, responses := s.responses ++ [⟨.errReceiver, false, 0#64⟩] }) ∧
    ((∀ c ∈ namedContexts i, c < s.nctx) → (∃ c ∈ neededGenerators i, ∀ w, ¬ s.Holds c w) →
      exec i s = .next { s with phase := .idle, responses := s.responses ++ [⟨.errUnseeded, false, 0#64⟩] }) ∧
    ((∀ c ∈ namedContexts i, c < s.nctx) → (∀ c ∈ neededGenerators i, ∃ w, s.Holds c w) →
      ∃ t : State, exec i s = .next t ∧
        ((t.phase = .idle ∧ ∃ r : Response, r.status = .ok ∧ t.responses = s.responses ++ [r]) ∨
          (t.phase ≠ .idle ∧ t.responses = s.responses ∧ t.ctxs = s.ctxs)))

/-- R185: a command taken that ends with a status other than OK writes no state, samples no entropy, and leaves the
block in IDLE. -/
def Obligations.ErrorsWriteNothing : Prop :=
  ∀ (c : Command) (s t : State) (r : Response), runCommand c s = .next t → t.responses = s.responses ++ [r] →
    r.status ≠ .ok →
    r.dv = false ∧ r.data = 0#64 ∧ t = { s with phase := .idle, responses := s.responses ++ [r] }

/-! ## The whole machine (10_state.md, 20_memory.md, 70_reset_and_hazards.md) -/

/-- R43: what reset leaves, for every number of contexts, and for the machine's own reset. What the words of a context and the
hidden registers hold is the model's choice (log entries 3 and 4) and is not stated. -/
def Obligations.ResetLeaves : Prop :=
  (∀ n : Nat, (State.resetOf n).nctx = n ∧ (State.resetOf n).phase = .idle ∧ (State.resetOf n).responses = [] ∧
    ∀ c : Nat, c < n → ∃ g : Context, (State.resetOf n).ctx? c = some g ∧ g.valid = false) ∧
  State.reset.phase = .idle ∧ State.reset.responses = [] ∧
  ∀ (c : Nat) (g : Context), State.reset.ctx? c = some g → g.valid = false

/-- R44, R200: the reset event clears every valid flag, abandons what was under way without a response, and keeps the
number of contexts. -/
def Obligations.ResetEventClears : Prop :=
  ∀ s : State, s.applyReset.nctx = s.nctx ∧ s.applyReset.phase = .idle ∧ s.applyReset.responses = [] ∧
    ∀ (c : Nat) (g : Context), s.applyReset.ctx? c = some g → g.valid = false

/-- The invariants hold right after reset, for every legal number of contexts (R6, R34, R43), and for the machine's own reset,
which has the number of contexts of `Config.nctx` (the model's choice, log entry 2). -/
def Obligations.ResetMeetsInvariants : Prop :=
  (∀ n : Nat, 1 ≤ n → n ≤ 256 → (State.resetOf n).Inv ∧ (State.resetOf n).NonDegenerate) ∧
  State.reset = State.resetOf Config.nctx ∧ State.reset.Inv ∧ State.reset.NonDegenerate

/-- The invariant is kept by every step (R6, R36, R142, R150, R152 to R154). -/
def Obligations.StepKeepsInvariant : Prop :=
  ∀ s t : State, s.Inv → step s = .next t → t.Inv

/-- From a state that meets the invariant no step stops: no fault, no refusal (R21, R185, R215). -/
def Obligations.StepNeverStops : Prop :=
  ∀ s : State, s.Inv → ∃ t : State, step s = .next t

/-- R34, which the spec derives from R113, R121, R131, R140 and R102: no step makes a generator all-zero. -/
def Obligations.GeneratorsStayNonzero : Prop :=
  ∀ s t : State, s.Inv → s.NonDegenerate → step s = .next t → t.NonDegenerate

/-- A command taken runs as the instruction it decodes to, and nothing but the command leaves the port (R52, R77). -/
def Obligations.StepRunsDecodedInstruction : Prop :=
  ∀ (s : State) (c : Command) (rest : List Command) (i : Instr),
    s.phase = .idle → s.commands = c :: rest → decode c = .ok i → step s = exec i { s with commands := rest }

/-- R52, R200: in IDLE with no command presented nothing changes; outside IDLE no command is taken. -/
def Obligations.CommandsAreTakenInIdleOnly : Prop :=
  (∀ s : State, s.phase = .idle → s.commands = [] → step s = .next s) ∧
  (∀ s t : State, s.phase ≠ .idle → step s = .next t → t.commands = s.commands)

/-- R53: each command taken gives exactly one response, the responses presented stay in order, and a busy block owes
one. -/
def Obligations.OneResponseForEachCommand : Prop :=
  ∀ s t : State, step s = .next t →
    (∃ new : List Response, t.responses = s.responses ++ new) ∧
    t.commands.length + t.responses.length + (if t.phase = .idle then 0 else 1) =
      s.commands.length + s.responses.length + (if s.phase = .idle then 0 else 1)

/-- R31, R33: an instruction writes no context but the one its `ctx` field names, a pass of JUMP or RANGE none but the
running one, and none of them changes the number of contexts. -/
def Obligations.OnlyNamedContextIsWritten : Prop :=
  (∀ (i : Instr) (s t : State), exec i s = .next t →
    t.nctx = s.nctx ∧ ∀ d : Nat, writtenContext i ≠ some d → t.ctx? d = s.ctx? d) ∧
  (∀ s t : State, s.phase ≠ .idle → step s = .next t →
    t.nctx = s.nctx ∧ ∀ d : Nat, d ≠ s.scratch.ctx → t.ctx? d = s.ctx? d)

/-- R32, R44: no step clears a valid flag, and no step but the one that takes a NEW or a COPY onto that context sets one: no
pass of JUMP or RANGE does. -/
def Obligations.ValidFlagOnlyRises : Prop :=
  (∀ (s t : State) (d : Nat) (g : Context), step s = .next t → s.ctx? d = some g → g.valid = true →
    ∃ g' : Context, t.ctx? d = some g' ∧ g'.valid = true) ∧
  (∀ (i : Instr) (s t : State) (d : Nat) (g g' : Context), exec i s = .next t → s.ctx? d = some g →
    t.ctx? d = some g' → g.valid = false → g'.valid = true →
    (∃ seed : Option Word, i = .new d seed) ∨ (∃ src : Nat, i = .copy d src)) ∧
  (∀ (s t : State) (d : Nat) (g g' : Context), step s = .next t → s.ctx? d = some g → t.ctx? d = some g' →
    g.valid = false → g'.valid = true →
    s.phase = .idle ∧ ∃ (c : Command) (rest : List Command) (i : Instr), s.commands = c :: rest ∧ decode c = .ok i ∧
      ((∃ seed : Option Word, i = .new d seed) ∨ (∃ src : Nat, i = .copy d src)))

/-- R63, R112, R185: entropy is sampled by a NEW that is executed without a usable seed, once, and by no other command; a step
that takes no command, a pass of JUMP or RANGE among them, samples none. The list and the free value that the draw comes from
are the model's (log entry 5). -/
def Obligations.EntropyIsSampledByNewOnly : Prop :=
  (∀ (c : Command) (s t : State), runCommand c s = .next t →
    (t.entropy = s.entropy ∧ t.draws = s.draws) ∨
    (∃ (d : Nat) (seed : Option Word), decode c = .ok (.new d seed) ∧ s.Samples (.new d seed) ∧
      ((∃ e : Word, s.entropy = e :: t.entropy ∧ t.draws = s.draws ∧ t.Holds d (mixWord e, e)) ∨
        (s.entropy = [] ∧ t.entropy = [] ∧ t.draws = s.draws + 1 ∧
          t.Holds d (mixWord (Config.entropy s.draws), Config.entropy s.draws))))) ∧
  (∀ s t : State, s.phase ≠ .idle ∨ s.commands = [] → step s = .next t →
    t.entropy = s.entropy ∧ t.draws = s.draws)

/-- R32, R37, R43: what the spec leaves without a value cannot be observed. Two states that differ in nothing else
make steps that differ in nothing else: the responses are the same. -/
def Obligations.UnspecifiedValuesAreUnobservable : Prop :=
  ∀ s t : State, s.Inv → s.Agrees t → ∃ s' t' : State, step s = .next s' ∧ step t = .next t' ∧ s'.Agrees t'

/-- R33, R60: commands that name different contexts do not interact, JUMP and RANGE by their complete runs. Taken in either
order, each gives the same response, and the contexts end the same. Two of them that both sample entropy get the two draws
in the order they are taken (log entry 5), so each order is compared with the draws exchanged. The last clause says what two
NEXT commands answer. -/
def Obligations.DifferentContextsDoNotInteract : Prop :=
  (∀ (i j : Instr) (s t t' : State), (∀ c ∈ namedContexts i, c ∉ namedContexts j) → ¬ (s.Samples i ∧ s.Samples j) →
    s.Completes i t → s.Completes j t' →
    ∃ (u u' : State) (p q : Response), t.Completes j u ∧ t'.Completes i u' ∧ u.ctxs = u'.ctxs ∧
      u.entropy = u'.entropy ∧ u.draws = u'.draws ∧
      u.responses = s.responses ++ [p, q] ∧ u'.responses = s.responses ++ [q, p]) ∧
  (∀ (s : State) (c d : Nat) (a b : Option Word) (e f : Word) (rest : List Word), c ≠ d →
    s.Samples (.new c a) → s.Samples (.new d b) → s.entropy = e :: f :: rest →
    ∃ t t' u u' : State, exec (.new c a) s = .next t ∧ exec (.new d b) t = .next u ∧
      exec (.new d b) { s with entropy := f :: e :: rest } = .next t' ∧ exec (.new c a) t' = .next u' ∧
      u.ctxs = u'.ctxs ∧ u.entropy = rest ∧ u'.entropy = rest ∧ u.responses = u'.responses) ∧
  (∀ (s : State) (c d : Nat) (v w : Word × Word), c ≠ d → s.Holds c v → s.Holds d w →
    ∃ t t' u u' : State, exec (.next c) s = .next t ∧ exec (.next d) t = .next u ∧
      exec (.next d) s = .next t' ∧ exec (.next c) t' = .next u' ∧ u.ctxs = u'.ctxs ∧
      u.responses = s.responses ++ [⟨.ok, true, stepOutput v⟩, ⟨.ok, true, stepOutput w⟩] ∧
      u'.responses = s.responses ++ [⟨.ok, true, stepOutput w⟩, ⟨.ok, true, stepOutput v⟩])
end

