-- ==== Sys2Proof/Laws/Arith.lean ====
section
/-! SUPPORT. The primitives of 00_scope.md as the library's bit-vector operations. -/

namespace Sys2Proof.Machine

theorem add64_eq (a b : Word) : add64 a b = a + b := rfl
theorem sub64_eq (a b : Word) : sub64 a b = a - b := rfl
theorem mul64_eq (a b : Word) : mul64 a b = a * b := rfl
theorem xor64_eq (a b : Word) : xor64 a b = a ^^^ b := rfl
theorem shl64_eq (a : Word) (n : Nat) (h : ShiftAmount n) : shl64 a n h = a <<< n := rfl
theorem shr64_eq (a : Word) (n : Nat) (h : ShiftAmount n) : shr64 a n h = a >>> n := rfl

/-- Where the subtrahend is not the larger, the subtraction is exact (R13). -/
theorem sub64_toNat {a b : Word} (h : b ≤ a) : (sub64 a b).toNat = a.toNat - b.toNat := BitVec.toNat_sub_of_le h

/-- The rotation of R17 is the library's. -/
theorem rotl64_eq (x : Word) (n : Nat) (h : ShiftAmount n) : rotl64 x n h = x.rotateLeft n := by
  simp only [rotl64, or64, shl64, shr64, BitVec.rotateLeft, BitVec.rotateLeftAux, Nat.mod_eq_of_lt h.2]

theorem udiv64_of_ne {a b : Word} (h : b ≠ 0#64) : udiv64 a b = some (a / b) := by simp [udiv64, h]

theorem umod64_of_ne {a b : Word} (h : b ≠ 0#64) : umod64 a b = some (a % b) := by simp [umod64, h]

end Sys2Proof.Machine
end

