-- ==== Sys2Proof/Laws/State.lean ====
section
/-! SUPPORT. What each update of the state does to each field: one lemma for each field and update, true by unfolding. -/

namespace Sys2Proof.Machine

variable (s : State)

/-! ## setCtx -/

@[simp] theorem State.setCtx_ctxs (c : Nat) (g : Context) : (s.setCtx c g).ctxs = s.ctxs.set c g := rfl
@[simp] theorem State.setCtx_phase (c : Nat) (g : Context) : (s.setCtx c g).phase = s.phase := rfl
@[simp] theorem State.setCtx_scratch (c : Nat) (g : Context) : (s.setCtx c g).scratch = s.scratch := rfl
@[simp] theorem State.setCtx_commands (c : Nat) (g : Context) : (s.setCtx c g).commands = s.commands := rfl
@[simp] theorem State.setCtx_entropy (c : Nat) (g : Context) : (s.setCtx c g).entropy = s.entropy := rfl
@[simp] theorem State.setCtx_draws (c : Nat) (g : Context) : (s.setCtx c g).draws = s.draws := rfl
@[simp] theorem State.setCtx_releases (c : Nat) (g : Context) : (s.setCtx c g).releases = s.releases := rfl
@[simp] theorem State.setCtx_responses (c : Nat) (g : Context) : (s.setCtx c g).responses = s.responses := rfl

/-! ## setWords -/

section
variable (c : Nat) (g : Context) (w0 w1 : Word)

@[simp] theorem State.setWords_ctxs :
    (s.setWords c g w0 w1).ctxs = s.ctxs.set c { g with s0 := w0, s1 := w1 } := rfl
@[simp] theorem State.setWords_phase : (s.setWords c g w0 w1).phase = s.phase := rfl
@[simp] theorem State.setWords_scratch : (s.setWords c g w0 w1).scratch = s.scratch := rfl
@[simp] theorem State.setWords_commands : (s.setWords c g w0 w1).commands = s.commands := rfl
@[simp] theorem State.setWords_entropy : (s.setWords c g w0 w1).entropy = s.entropy := rfl
@[simp] theorem State.setWords_draws : (s.setWords c g w0 w1).draws = s.draws := rfl
@[simp] theorem State.setWords_releases : (s.setWords c g w0 w1).releases = s.releases := rfl
@[simp] theorem State.setWords_responses : (s.setWords c g w0 w1).responses = s.responses := rfl
end

/-! ## respond -/

@[simp] theorem State.respond_ctxs (r : Response) : (s.respond r).ctxs = s.ctxs := rfl
@[simp] theorem State.respond_phase (r : Response) : (s.respond r).phase = .idle := rfl
@[simp] theorem State.respond_scratch (r : Response) : (s.respond r).scratch = s.scratch := rfl
@[simp] theorem State.respond_commands (r : Response) : (s.respond r).commands = s.commands := rfl
@[simp] theorem State.respond_entropy (r : Response) : (s.respond r).entropy = s.entropy := rfl
@[simp] theorem State.respond_draws (r : Response) : (s.respond r).draws = s.draws := rfl
@[simp] theorem State.respond_releases (r : Response) : (s.respond r).releases = s.releases := rfl
@[simp] theorem State.respond_responses (r : Response) : (s.respond r).responses = s.responses ++ [r] := rfl

/-! ## releaseScratch -/

@[simp] theorem State.releaseScratch_ctxs : s.releaseScratch.ctxs = s.ctxs := rfl
@[simp] theorem State.releaseScratch_phase : s.releaseScratch.phase = s.phase := rfl
@[simp] theorem State.releaseScratch_scratch : s.releaseScratch.scratch = Config.releasedScratch s.releases := rfl
@[simp] theorem State.releaseScratch_commands : s.releaseScratch.commands = s.commands := rfl
@[simp] theorem State.releaseScratch_entropy : s.releaseScratch.entropy = s.entropy := rfl
@[simp] theorem State.releaseScratch_draws : s.releaseScratch.draws = s.draws := rfl
@[simp] theorem State.releaseScratch_releases : s.releaseScratch.releases = s.releases + 1 := rfl
@[simp] theorem State.releaseScratch_responses : s.releaseScratch.responses = s.responses := rfl

/-! ## applyReset -/

@[simp] theorem State.applyReset_ctxs : s.applyReset.ctxs = List.replicate s.ctxs.length Context.unseeded := rfl
@[simp] theorem State.applyReset_phase : s.applyReset.phase = .idle := rfl
@[simp] theorem State.applyReset_scratch : s.applyReset.scratch = Scratch.zero := rfl
@[simp] theorem State.applyReset_commands : s.applyReset.commands = s.commands := rfl
@[simp] theorem State.applyReset_entropy : s.applyReset.entropy = s.entropy := rfl
@[simp] theorem State.applyReset_draws : s.applyReset.draws = s.draws := rfl
@[simp] theorem State.applyReset_releases : s.applyReset.releases = s.releases := rfl
@[simp] theorem State.applyReset_responses : s.applyReset.responses = [] := rfl

/-! ## drawEntropy: it writes the entropy port and its counter alone -/

@[simp] theorem State.drawEntropy_ctxs : s.drawEntropy.2.ctxs = s.ctxs := by unfold State.drawEntropy; split <;> rfl
@[simp] theorem State.drawEntropy_phase : s.drawEntropy.2.phase = s.phase := by unfold State.drawEntropy; split <;> rfl
@[simp] theorem State.drawEntropy_scratch : s.drawEntropy.2.scratch = s.scratch := by
  unfold State.drawEntropy; split <;> rfl
@[simp] theorem State.drawEntropy_commands : s.drawEntropy.2.commands = s.commands := by
  unfold State.drawEntropy; split <;> rfl
@[simp] theorem State.drawEntropy_releases : s.drawEntropy.2.releases = s.releases := by
  unfold State.drawEntropy; split <;> rfl
@[simp] theorem State.drawEntropy_responses : s.drawEntropy.2.responses = s.responses := by
  unfold State.drawEntropy; split <;> rfl

/-! ## Reading a context -/

@[simp] theorem State.ctx?_respond (r : Response) (c : Nat) : (s.respond r).ctx? c = s.ctx? c := rfl
@[simp] theorem State.ctx?_releaseScratch (c : Nat) : s.releaseScratch.ctx? c = s.ctx? c := rfl
@[simp] theorem State.ctx?_drawEntropy (c : Nat) : s.drawEntropy.2.ctx? c = s.ctx? c := by
  unfold State.ctx?; rw [State.drawEntropy_ctxs]

/-- A context that was written reads as what was written, if it exists. -/
theorem State.ctx?_setCtx_self {c : Nat} (g : Context) (h : c < s.ctxs.length) : (s.setCtx c g).ctx? c = some g := by
  simp [State.ctx?, h]

/-- Every other context reads as before (R33). -/
theorem State.ctx?_setCtx_other {c d : Nat} (g : Context) (h : d ≠ c) : (s.setCtx c g).ctx? d = s.ctx? d := by
  simp [State.ctx?, List.getElem?_set_ne (Ne.symm h)]

/-- A context exists exactly when its index is below `NCTX` (R182). -/
theorem State.ctx?_eq_none_iff (c : Nat) : s.ctx? c = none ↔ s.nctx ≤ c := by
  simp [State.ctx?, State.nctx]

/-- A context that is read exists. -/
theorem State.lt_of_ctx?_eq_some {c : Nat} {g : Context} (h : s.ctx? c = some g) : c < s.ctxs.length := by
  unfold State.ctx? at h
  exact (List.getElem?_eq_some_iff.mp h).1

end Sys2Proof.Machine
end

