-- ==== Sys2Proof/Laws/Ops.lean ====
section
/-! SUPPORT. What each shared operation can do, said once. -/

namespace Sys2Proof.Machine

/-- An error answers a next state in which only the response is new and the phase is IDLE (R185). -/
theorem raise_eq (st : Status) (s : State) : raise st s = .next (s.respond (Response.plain st)) := rfl

theorem withContext_none {c : Nat} {s : State} (h : s.ctx? c = none) (k : Context → Result) :
    withContext c s k = raise .errReceiver s := by simp [withContext, h]

theorem withContext_some {c : Nat} {s : State} {g : Context} (h : s.ctx? c = some g) (k : Context → Result) :
    withContext c s k = k g := by simp [withContext, h]

theorem withGenerator_none {c : Nat} {s : State} (h : s.ctx? c = none) (k : Context → Result) :
    withGenerator c s k = raise .errReceiver s := withContext_none h _

theorem withGenerator_unseeded {c : Nat} {s : State} {g : Context} (h : s.ctx? c = some g) (hv : g.valid = false)
    (k : Context → Result) : withGenerator c s k = raise .errUnseeded s := by
  simp [withGenerator, withContext_some h, hv]

theorem withGenerator_valid {c : Nat} {s : State} {g : Context} (h : s.ctx? c = some g) (hv : g.valid = true)
    (k : Context → Result) : withGenerator c s k = k g := by
  simp [withGenerator, withContext_some h, hv]

/-- A context operand either names no context, or the command goes on with what it holds. -/
theorem withContext_cases (c : Nat) (s : State) (k : Context → Result) :
    (s.ctx? c = none ∧ withContext c s k = raise .errReceiver s) ∨
      (∃ g, s.ctx? c = some g ∧ withContext c s k = k g) := by
  cases h : s.ctx? c with
  | none => exact .inl ⟨rfl, withContext_none h k⟩
  | some g => exact .inr ⟨g, rfl, withContext_some h k⟩

/-- A generator operand names no context, or holds no generator, or the command goes on with the generator. -/
theorem withGenerator_cases (c : Nat) (s : State) (k : Context → Result) :
    (s.ctx? c = none ∧ withGenerator c s k = raise .errReceiver s) ∨
      (∃ g, s.ctx? c = some g ∧ g.valid = false ∧ withGenerator c s k = raise .errUnseeded s) ∨
      (∃ g, s.ctx? c = some g ∧ g.valid = true ∧ withGenerator c s k = k g) := by
  cases h : s.ctx? c with
  | none => exact .inl ⟨rfl, withGenerator_none h k⟩
  | some g =>
    cases hv : g.valid with
    | false => exact .inr (.inl ⟨g, rfl, hv, withGenerator_unseeded h hv k⟩)
    | true => exact .inr (.inr ⟨g, rfl, hv, withGenerator_valid h hv k⟩)

/-- A draw takes the scripted value if there is one, else a free value. -/
theorem State.drawEntropy_cases (s : State) :
    (∃ e rest, s.entropy = e :: rest ∧ s.drawEntropy = (e, { s with entropy := rest })) ∨
      (s.entropy = [] ∧ s.drawEntropy = (Config.entropy s.draws, { s with draws := s.draws + 1 })) := by
  cases h : s.entropy with
  | nil => exact .inr ⟨rfl, by simp [State.drawEntropy, h]⟩
  | cons e rest => exact .inl ⟨e, rest, rfl, by simp [State.drawEntropy, h]⟩

/-- The effective seed is the seed given, or a draw; only a draw changes the state (R111). -/
theorem effectiveSeed_cases (seed : Option Word) (s : State) :
    (∃ a, seed = some a ∧ a ≠ 0#64 ∧ effectiveSeed seed s = (a, s)) ∨
      ((seed = none ∨ seed = some 0#64) ∧ effectiveSeed seed s = s.drawEntropy) := by
  cases seed with
  | none => exact .inr ⟨.inl rfl, rfl⟩
  | some a =>
    by_cases h : a = 0#64
    · exact .inr ⟨.inr (by rw [h]), by simp [effectiveSeed, h]⟩
    · exact .inl ⟨a, rfl, h, by simp [effectiveSeed, h]⟩

/-- The effective seed reads and writes no context, no hidden register and no port but the entropy port. -/
theorem effectiveSeed_frame (seed : Option Word) (s : State) :
    (effectiveSeed seed s).2.ctxs = s.ctxs ∧ (effectiveSeed seed s).2.phase = s.phase ∧
      (effectiveSeed seed s).2.scratch = s.scratch ∧ (effectiveSeed seed s).2.commands = s.commands ∧
      (effectiveSeed seed s).2.releases = s.releases ∧ (effectiveSeed seed s).2.responses = s.responses := by
  obtain ⟨a, -, -, h⟩ | ⟨-, h⟩ := effectiveSeed_cases seed s <;> simp [h]

/-- The host's next command, if there is one, is taken off the port and nothing else changes (R52). -/
theorem State.takeCommand_cases (s : State) :
    (s.commands = [] ∧ s.takeCommand = none) ∨
      (∃ c rest, s.commands = c :: rest ∧ s.takeCommand = some (c, { s with commands := rest })) := by
  cases h : s.commands with
  | nil => exact .inl ⟨rfl, by simp [State.takeCommand, h]⟩
  | cons c rest => exact .inr ⟨c, rest, rfl, by simp [State.takeCommand, h]⟩

/-- One transition is a wait, a command taken, a pass of JUMP or a pass of RANGE, by the phase and the port. -/
theorem step_cases (s : State) :
    (s.phase = .idle ∧ s.commands = [] ∧ step s = .next s) ∨
      (∃ c rest, s.phase = .idle ∧ s.commands = c :: rest ∧ step s = runCommand c { s with commands := rest }) ∨
      (s.phase = .jumping ∧ step s = jumpPass s) ∨ (s.phase = .drawing ∧ step s = drawPass s) := by
  cases hp : s.phase with
  | jumping => exact .inr (.inr (.inl ⟨rfl, by simp [step, hp]⟩))
  | drawing => exact .inr (.inr (.inr ⟨rfl, by simp [step, hp]⟩))
  | idle =>
    obtain ⟨hc, ht⟩ | ⟨c, rest, hc, ht⟩ := s.takeCommand_cases
    · exact .inl ⟨rfl, hc, by simp [step, hp, ht]⟩
    · exact .inr (.inl ⟨c, rest, rfl, hc, by simp [step, hp, ht]⟩)

/-- A command taken is answered ERR_ILLEGAL or executed. -/
theorem runCommand_cases (c : Command) (s : State) :
    (∃ e, decode c = .error e ∧ runCommand c s = raise .errIllegal s) ∨
      (∃ i, decode c = .ok i ∧ runCommand c s = exec i s) := by
  cases h : decode c with
  | error e => exact .inl ⟨e, rfl, by simp [runCommand, h]⟩
  | ok i => exact .inr ⟨i, rfl, by simp [runCommand, h]⟩

/-- A pass of JUMP: the context is missing, or it was the last pass, or the next one follows (R144). -/
theorem jumpPass_cases (s : State) :
    (s.ctx? s.scratch.ctx = none ∧ jumpPass s = .fault .noContext) ∨
      (∃ g acc, s.ctx? s.scratch.ctx = some g ∧
        acc = accumulate s.scratch.iter.toNat (s.scratch.acc0, s.scratch.acc1) (g.s0, g.s1) ∧
        ((s.scratch.iter = 127#7 ∧ jumpPass s =
            .next (((s.setWords s.scratch.ctx g acc.1 acc.2).releaseScratch).respond (Response.plain .ok))) ∨
          (s.scratch.iter ≠ 127#7 ∧ jumpPass s =
            .next { s.setWords s.scratch.ctx g (stepWords g.s0 g.s1).s0 (stepWords g.s0 g.s1).s1 with
              scratch := { s.scratch with acc0 := acc.1, acc1 := acc.2, iter := s.scratch.iter + 1#7 } }))) := by
  cases h : s.ctx? s.scratch.ctx with
  | none => exact .inl ⟨rfl, by simp [jumpPass, h]⟩
  | some g =>
    refine .inr ⟨g, _, rfl, rfl, ?_⟩
    by_cases hi : s.scratch.iter = 127#7
    · exact .inl ⟨hi, by simp [jumpPass, h, hi]⟩
    · exact .inr ⟨hi, by simp [jumpPass, h, hi]⟩

/-- A pass of RANGE: the context is missing, or the raw value is rejected, or it is reduced, or there is no quotient
(R155, R156). -/
theorem drawPass_cases (s : State) :
    (s.ctx? s.scratch.ctx = none ∧ drawPass s = .fault .noContext) ∨
      (∃ g n, s.ctx? s.scratch.ctx = some g ∧ n = stepWords g.s0 g.s1 ∧
        ((s.scratch.threshold ≤ n.result ∧ drawPass s =
            .next { s.setWords s.scratch.ctx g n.s0 n.s1 with scratch := { s.scratch with raw := n.result } }) ∨
          (n.result < s.scratch.threshold ∧ s.scratch.bucketSize = 0#64 ∧ drawPass s = .refused .divisionByZero) ∨
          (∃ d, n.result < s.scratch.threshold ∧ reduce s.scratch.minL s.scratch.bucketSize n.result = some d ∧
            drawPass s = .next
              (((s.setWords s.scratch.ctx g n.s0 n.s1).releaseScratch).respond (Response.value d))))) := by
  cases h : s.ctx? s.scratch.ctx with
  | none => exact .inl ⟨rfl, by simp [drawPass, h]⟩
  | some g =>
    refine .inr ⟨g, _, rfl, rfl, ?_⟩
    by_cases ht : s.scratch.threshold ≤ (stepWords g.s0 g.s1).result
    · exact .inl ⟨ht, by simp [drawPass, h, ht]⟩
    · have hlt := BitVec.not_le.mp ht
      cases hr : reduce s.scratch.minL s.scratch.bucketSize (stepWords g.s0 g.s1).result with
      | none =>
        have hb : s.scratch.bucketSize = 0#64 := by
          by_contra hb
          simp [reduce, udiv64, hb] at hr
        exact .inr (.inl ⟨hlt, hb, by simp [drawPass, h, ht, hr]⟩)
      | some d => exact .inr (.inr ⟨d, hlt, rfl, by simp [drawPass, h, ht, hr]⟩)

end Sys2Proof.Machine
end

