-- ==== Sys2Proof/Laws/Exec.lean ====
section
/-! SUPPORT. What executing an instruction can do, said once; and how runs compose. -/

namespace Sys2Proof.Machine

/-- A nonempty interval has a divisor that is not 0 (R19, R152), so its three values exist. -/
theorem rangeParams_of_lt {lo hi : Word} (h : lo < hi) :
    rangeParams lo hi = some
      { range := sub64 hi lo, bucketSize := randMax / sub64 hi lo,
        threshold := sub64 randMax (randMax % sub64 hi lo) } := by
  have hlt : lo.toNat < hi.toNat := BitVec.lt_def.mp h
  have hsub : (sub64 hi lo).toNat = hi.toNat - lo.toNat := sub64_toNat (BitVec.le_def.mpr (by omega))
  have hne : sub64 hi lo ≠ 0#64 := by
    intro hz
    rw [hz] at hsub
    simp at hsub
    omega
  simp [rangeParams, udiv64_of_ne hne, umod64_of_ne hne]

/-- The instruction ran without an error from `s` to `t`: what it read, and what it wrote. -/
def Ran : Instr → State → State → Prop
  | .new c seed, s, t =>
    c < s.nctx ∧
      t = ((effectiveSeed seed s).2.setCtx c (seeded (effectiveSeed seed s).1)).respond (Response.plain .ok)
  | .copy d src, s, t =>
    d < s.nctx ∧ ∃ g, s.ctx? src = some g ∧ g.valid = true ∧
      t = (s.setCtx d { s0 := g.s0, s1 := g.s1, valid := true }).respond (Response.plain .ok)
  | .jump c, s, t =>
    ∃ g, s.ctx? c = some g ∧ g.valid = true ∧
      t = { s with
        phase := .jumping
        scratch := { s.scratch with ctx := c, acc0 := 0#64, acc1 := 0#64, iter := 0#7 } }
  | .next c, s, t =>
    ∃ g, s.ctx? c = some g ∧ g.valid = true ∧
      t = ((s.setWords c g (stepWords g.s0 g.s1).s0 (stepWords g.s0 g.s1).s1).releaseScratch).respond
        (Response.value (stepWords g.s0 g.s1).result)
  | .range c lo hi, s, t =>
    ∃ g, s.ctx? c = some g ∧ g.valid = true ∧
      ((lo = hi ∧ t = s.respond (Response.value lo)) ∨ (hi < lo ∧ t = s.respond (Response.value 0#64)) ∨
        (lo < hi ∧ ∃ p, rangeParams lo hi = some p ∧
          t = { s with
            phase := .drawing
            scratch := { s.scratch with
              ctx := c, minL := lo, range := p.range, bucketSize := p.bucketSize, threshold := p.threshold } }))
  | .mix n, s, t => t = s.respond (Response.value (mixWord n))
  | .rdmax, s, t => t = s.respond (Response.value randMax)

/-- Executing an instruction ends ERR_RECEIVER, or ends ERR_UNSEEDED, or runs; it never stops. -/
theorem exec_cases (i : Instr) (s : State) :
    ((∃ c ∈ namedContexts i, s.ctx? c = none) ∧ exec i s = raise .errReceiver s) ∨
      ((∃ c ∈ neededGenerators i, ∃ g, s.ctx? c = some g ∧ g.valid = false) ∧ exec i s = raise .errUnseeded s) ∨
      ∃ t, Ran i s t ∧ exec i s = .next t := by
  cases i with
  | new c seed =>
    obtain ⟨h, he⟩ | ⟨g, h, he⟩ := withContext_cases c s fun _ =>
      .next (((effectiveSeed seed s).2.setCtx c (seeded (effectiveSeed seed s).1)).respond (Response.plain .ok))
    · exact .inl ⟨⟨c, by simp [namedContexts], h⟩, he⟩
    · exact .inr (.inr ⟨_, ⟨s.lt_of_ctx?_eq_some h, rfl⟩, he⟩)
  | copy d src =>
    cases hd : s.ctx? d with
    | none => exact .inl ⟨⟨d, by simp [namedContexts], hd⟩, withContext_none hd _⟩
    | some _ =>
      obtain ⟨h, he⟩ | ⟨g, h, hv, he⟩ | ⟨g, h, hv, he⟩ := withGenerator_cases src s fun g =>
        .next ((s.setCtx d { s0 := g.s0, s1 := g.s1, valid := true }).respond (Response.plain .ok))
      · exact .inl ⟨⟨src, by simp [namedContexts], h⟩, (withContext_some hd _).trans he⟩
      · exact .inr (.inl ⟨⟨src, by simp [neededGenerators], g, h, hv⟩, (withContext_some hd _).trans he⟩)
      · exact .inr (.inr ⟨_, ⟨s.lt_of_ctx?_eq_some hd, g, h, hv, rfl⟩, (withContext_some hd _).trans he⟩)
  | jump c =>
    cases h : s.ctx? c with
    | none => exact .inl ⟨⟨c, by simp [namedContexts], h⟩, withGenerator_none h _⟩
    | some g =>
      cases hv : g.valid with
      | false => exact .inr (.inl ⟨⟨c, by simp [neededGenerators], g, h, hv⟩, withGenerator_unseeded h hv _⟩)
      | true => exact .inr (.inr ⟨_, ⟨g, h, hv, rfl⟩, withGenerator_valid h hv _⟩)
  | next c =>
    cases h : s.ctx? c with
    | none => exact .inl ⟨⟨c, by simp [namedContexts], h⟩, withGenerator_none h _⟩
    | some g =>
      cases hv : g.valid with
      | false => exact .inr (.inl ⟨⟨c, by simp [neededGenerators], g, h, hv⟩, withGenerator_unseeded h hv _⟩)
      | true => exact .inr (.inr ⟨_, ⟨g, h, hv, rfl⟩, withGenerator_valid h hv _⟩)
  | range c lo hi =>
    cases h : s.ctx? c with
    | none => exact .inl ⟨⟨c, by simp [namedContexts], h⟩, withGenerator_none h _⟩
    | some g =>
      cases hv : g.valid with
      | false => exact .inr (.inl ⟨⟨c, by simp [neededGenerators], g, h, hv⟩, withGenerator_unseeded h hv _⟩)
      | true =>
        refine .inr (.inr ?_)
        obtain heq | hgt | hlt : lo = hi ∨ hi < lo ∨ lo < hi := by
          simp only [BitVec.lt_def, ← BitVec.toNat_inj]
          omega
        · exact ⟨_, ⟨g, h, hv, .inl ⟨heq, rfl⟩⟩, (withGenerator_valid h hv _).trans (by simp [heq])⟩
        · have hne : lo ≠ hi := fun e => absurd (e ▸ hgt) (BitVec.lt_irrefl _)
          exact ⟨_, ⟨g, h, hv, .inr (.inl ⟨hgt, rfl⟩)⟩, (withGenerator_valid h hv _).trans (by simp [hne, hgt])⟩
        · have hne : lo ≠ hi := fun e => absurd (e ▸ hlt) (BitVec.lt_irrefl _)
          have hng : ¬ hi < lo := fun e => absurd (BitVec.lt_trans hlt e) (BitVec.lt_irrefl _)
          exact ⟨_, ⟨g, h, hv, .inr (.inr ⟨hlt, _, rangeParams_of_lt hlt, rfl⟩)⟩,
            (withGenerator_valid h hv _).trans (by simp [hne, hng, rangeParams_of_lt hlt])⟩
  | mix n => exact .inr (.inr ⟨_, rfl, rfl⟩)
  | rdmax => exact .inr (.inr ⟨_, rfl, rfl⟩)

/-! ## Runs -/

theorem State.runsTo_zero (s : State) : s.RunsTo 0 s := rfl

/-- One transition and then a run. -/
theorem State.runsTo_succ {n : Nat} {s t u : State} (h : step s = .next t) (hr : t.RunsTo n u) : s.RunsTo (n + 1) u := by
  unfold State.RunsTo at hr ⊢
  simp only [Host.Core.run]
  rw [show core.step s = step s from rfl, h]
  exact hr

/-- A run of `n + 1` transitions begins with one. -/
theorem State.exists_of_runsTo_succ {n : Nat} {s u : State} (h : s.RunsTo (n + 1) u) :
    ∃ t, step s = .next t ∧ t.RunsTo n u := by
  unfold State.RunsTo at h
  simp only [Host.Core.run] at h
  cases hs : step s with
  | next t =>
    rw [show core.step s = step s from rfl, hs] at h
    exact ⟨t, rfl, h⟩
  | fault r =>
    rw [show core.step s = step s from rfl, hs] at h
    cases h
  | refused r =>
    rw [show core.step s = step s from rfl, hs] at h
    cases h

/-- Two runs, one after the other. -/
theorem State.runsTo_trans {m n : Nat} {s t u : State} (h : s.RunsTo m t) (hr : t.RunsTo n u) : s.RunsTo (m + n) u := by
  induction m generalizing s with
  | zero =>
    cases h
    simpa using hr
  | succ m ih =>
    obtain ⟨v, hv, hm⟩ := State.exists_of_runsTo_succ h
    rw [Nat.add_right_comm]
    exact State.runsTo_succ hv (ih hm)

/-! ## Loops -/

/-- The last of `n + 1` iterations of a jump, taken apart (R142). -/
theorem jumpLoop_last (n : Nat) : ∀ (k : Nat) (acc w : Word × Word),
    jumpLoop (n + 1) k acc w = accumulate (k + n) (jumpLoop n k acc w) (stepMap^[n] w) := by
  induction n with
  | zero => intro k acc w; rfl
  | succ n ih =>
    intro k acc w
    show jumpLoop (n + 1) (k + 1) (accumulate k acc w) (stepMap w) = _
    rw [ih, Nat.add_right_comm]
    rfl

end Sys2Proof.Machine
end

