-- ==== Sys2Proof/Laws/Complete.lean ====
section
/-! SUPPORT. What a complete command can do, said once: it depends on no context but those it names, and writes at most one
of them (10_state.md R33). -/

namespace Sys2Proof.Machine

/-! ## Runs that complete a command -/

theorem State.runsTo_unique {n : Nat} {s t u : State} (h : s.RunsTo n t) (h' : s.RunsTo n u) : t = u := by
  unfold State.RunsTo at h h'
  rw [h] at h'
  cases h'
  rfl

/-- An instruction that ends in one transition completes there. -/
theorem State.completes_of_idle {i : Instr} {s t : State} (h : exec i s = .next t) (hp : t.phase = .idle) :
    s.Completes i t :=
  ⟨0, t, h, t.runsTo_zero, hp, fun m hm => absurd hm (Nat.not_lt_zero m)⟩

/-- A state is busy at each of the first `n` transitions of its run. -/
def State.BusyFor (s : State) (n : Nat) : Prop := ∀ m : Nat, m < n → ∃ v : State, s.RunsTo m v ∧ v.phase ≠ .idle

theorem State.eq_of_busyFor_of_idle {n : Nat} {s t : State} (hi : s.phase = .idle) (hr : s.RunsTo n t)
    (hb : s.BusyFor n) : s = t := by
  cases n with
  | zero =>
    cases hr
    rfl
  | succ n =>
    obtain ⟨v, hv, hvb⟩ := hb 0 n.succ_pos
    cases hv
    exact absurd hi hvb

/-- One busy transition and then `n` more. -/
theorem State.busyFor_succ {n : Nat} {s t : State} (hp : s.phase ≠ .idle) (hst : step s = .next t) (hb : t.BusyFor n) :
    s.BusyFor (n + 1) := by
  intro m hm
  cases m with
  | zero => exact ⟨s, s.runsTo_zero, hp⟩
  | succ m =>
    obtain ⟨v, hv, hvb⟩ := hb m (Nat.lt_of_succ_lt_succ hm)
    exact ⟨v, State.runsTo_succ hst hv, hvb⟩

theorem State.busyFor_tail {n : Nat} {s t : State} (hst : step s = .next t) (hb : s.BusyFor (n + 1)) : t.BusyFor n := by
  intro m hm
  obtain ⟨v, hv, hvb⟩ := hb (m + 1) (Nat.succ_lt_succ hm)
  obtain ⟨w, hw, hr⟩ := State.exists_of_runsTo_succ hv
  rw [hst] at hw
  cases hw
  exact ⟨v, hr, hvb⟩

/-! ## The passes of a loop -/

/-- Two states in which the passes of a loop see the same: the phase, the running context and the registers the phase uses. -/
structure SamePass (s t : State) : Prop where
  phase     : s.phase = t.phase
  ctx       : s.scratch.ctx = t.scratch.ctx
  words     : s.ctx? s.scratch.ctx = t.ctx? t.scratch.ctx
  acc0      : s.phase = .jumping → s.scratch.acc0 = t.scratch.acc0
  acc1      : s.phase = .jumping → s.scratch.acc1 = t.scratch.acc1
  iter      : s.phase = .jumping → s.scratch.iter = t.scratch.iter
  minL      : s.phase = .drawing → s.scratch.minL = t.scratch.minL
  bucket    : s.phase = .drawing → s.scratch.bucketSize = t.scratch.bucketSize
  threshold : s.phase = .drawing → s.scratch.threshold = t.scratch.threshold

theorem SamePass.refl (s : State) : SamePass s s :=
  ⟨rfl, rfl, rfl, fun _ => rfl, fun _ => rfl, fun _ => rfl, fun _ => rfl, fun _ => rfl, fun _ => rfl⟩

/-- From `s` to `t` the context `c` was set to `g`, the responses `new` were presented, and no entropy was sampled. -/
structure Wrote (c : Nat) (g : Context) (new : List Response) (s t : State) : Prop where
  ctxs      : t.ctxs = s.ctxs.set c g
  responses : t.responses = s.responses ++ new
  entropy   : t.entropy = s.entropy
  draws     : t.draws = s.draws

theorem Wrote.trans {c : Nat} {g g' : Context} {new new' : List Response} {s t u : State} (h : Wrote c g new s t)
    (h' : Wrote c g' new' t u) : Wrote c g' (new ++ new') s u :=
  ⟨by rw [h'.ctxs, h.ctxs, List.set_set], by rw [h'.responses, h.responses, List.append_assoc],
    h'.entropy.trans h.entropy, h'.draws.trans h.draws⟩

/-- A pass from two states that it sees the same in writes the same, and ends the loop in both or in neither. -/
theorem SamePass.step {s s' t : State} (h : SamePass s s') (hb : s.phase ≠ .idle) (hst : step s = .next t) :
    ∃ t' g new, step s' = .next t' ∧ Wrote s.scratch.ctx g new s t ∧ Wrote s.scratch.ctx g new s' t' ∧
      ((t.phase = .idle ∧ t'.phase = .idle ∧ ∃ r, new = [r]) ∨
        (t.phase ≠ .idle ∧ new = [] ∧ t.scratch.ctx = s.scratch.ctx ∧ SamePass t t')) := by
  have hw := h.words
  have hwords : ∀ {g : Context} (g' : Context), s.ctx? s.scratch.ctx = some g →
      (s.setCtx s.scratch.ctx g').ctx? s.scratch.ctx = (s'.setCtx s.scratch.ctx g').ctx? s'.scratch.ctx := by
    intro g g' hc
    rw [← h.ctx] at hw ⊢
    rw [State.ctx?_setCtx_self _ _ (s.lt_of_ctx?_eq_some hc),
      State.ctx?_setCtx_self _ _ (s'.lt_of_ctx?_eq_some (hw.symm.trans hc))]
  obtain ⟨hi, _⟩ | ⟨_, _, hi, _⟩ | ⟨hp, he⟩ | ⟨hp, he⟩ := step_cases s
  · exact absurd hi hb
  · exact absurd hi hb
  · have he' : Machine.step s' = jumpPass s' := by simp [Machine.step, ← h.phase, hp]
    rw [he] at hst
    rw [he']
    unfold jumpPass at hst ⊢
    rw [← h.ctx] at hw ⊢
    rw [← h.acc0 hp, ← h.acc1 hp, ← h.iter hp, ← hw]
    cases hc : s.ctx? s.scratch.ctx with
    | none =>
      rw [hc] at hst
      cases hst
    | some g =>
      rw [hc] at hst
      by_cases hi : s.scratch.iter = 127#7
      · simp only [hi, if_true] at hst ⊢
        cases hst
        exact ⟨_, _, _, rfl, ⟨rfl, rfl, rfl, rfl⟩, ⟨rfl, rfl, rfl, rfl⟩, .inl ⟨rfl, rfl, _, rfl⟩⟩
      · simp only [hi, if_false] at hst ⊢
        cases hst
        exact ⟨_, _, [], rfl, ⟨rfl, by simp, rfl, rfl⟩, ⟨rfl, by simp, rfl, rfl⟩, .inr ⟨hb, rfl, rfl,
          ⟨h.phase, h.ctx, hwords _ hc, fun _ => rfl, fun _ => rfl, fun _ => rfl, h.minL, h.bucket, h.threshold⟩⟩⟩
  · have he' : Machine.step s' = drawPass s' := by simp [Machine.step, ← h.phase, hp]
    rw [he] at hst
    rw [he']
    unfold drawPass at hst ⊢
    rw [← h.ctx] at hw ⊢
    rw [← h.threshold hp, ← h.minL hp, ← h.bucket hp, ← hw]
    cases hc : s.ctx? s.scratch.ctx with
    | none =>
      rw [hc] at hst
      cases hst
    | some g =>
      rw [hc] at hst
      by_cases hi : (stepWords g.s0 g.s1).result ≥ s.scratch.threshold
      · simp only [hi, if_true] at hst ⊢
        cases hst
        exact ⟨_, _, [], rfl, ⟨rfl, by simp, rfl, rfl⟩, ⟨rfl, by simp, rfl, rfl⟩, .inr ⟨hb, rfl, rfl,
          ⟨h.phase, h.ctx, hwords _ hc, h.acc0, h.acc1, h.iter, h.minL, h.bucket, h.threshold⟩⟩⟩
      · simp only [hi, if_false] at hst ⊢
        cases hr : reduce s.scratch.minL s.scratch.bucketSize (stepWords g.s0 g.s1).result with
        | none =>
          simp only [hr] at hst
          cases hst
        | some d =>
          simp only [hr] at hst ⊢
          cases hst
          exact ⟨_, _, _, rfl, ⟨rfl, rfl, rfl, rfl⟩, ⟨rfl, rfl, rfl, rfl⟩, .inl ⟨rfl, rfl, _, rfl⟩⟩

/-- A loop from two states that its passes see the same in ends in both, after as many passes, and writes the same. -/
theorem SamePass.run (n : Nat) : ∀ {s s' t : State}, SamePass s s' → s.phase ≠ .idle → s.RunsTo n t → t.phase = .idle →
    s.BusyFor n → ∃ t' g r, s'.RunsTo n t' ∧ t'.phase = .idle ∧ s'.BusyFor n ∧
      Wrote s.scratch.ctx g [r] s t ∧ Wrote s.scratch.ctx g [r] s' t' := by
  induction n with
  | zero =>
    intro s s' t _ hb h hp _
    cases h
    exact absurd hp hb
  | succ n ih =>
    intro s s' t hs hb h hp hbusy
    have hb' : s'.phase ≠ .idle := hs.phase ▸ hb
    obtain ⟨v, hv, hr⟩ := State.exists_of_runsTo_succ h
    obtain ⟨v', g, new, hv', hu, hu', ⟨h1, h2, r, rfl⟩ | ⟨h1, rfl, hctx, hsame⟩⟩ := hs.step hb hv
    · have hvt := State.eq_of_busyFor_of_idle h1 hr (State.busyFor_tail hv hbusy)
      subst hvt
      cases n with
      | zero =>
        exact ⟨v', g, r, State.runsTo_succ hv' v'.runsTo_zero, h2,
          State.busyFor_succ hb' hv' fun m hm => absurd hm (Nat.not_lt_zero m), hu, hu'⟩
      | succ n =>
        obtain ⟨w, hw, hwb⟩ := State.busyFor_tail hv hbusy 0 n.succ_pos
        cases hw
        exact absurd h1 hwb
    · obtain ⟨t', g', r, ht', hp', hbusy', hw, hw'⟩ := ih hsame h1 hr hp (State.busyFor_tail hv hbusy)
      rw [hctx] at hw hw'
      exact ⟨t', g', r, State.runsTo_succ hv' ht', hp', State.busyFor_succ hb' hv' hbusy', hu.trans hw, hu'.trans hw'⟩

/-! ## Complete commands -/

/-- The context file after instruction `i` wrote `g`, or nothing, to the context it writes. -/
def afterWrite (i : Instr) (g : Option Context) (l : List Context) : List Context :=
  match writtenContext i, g with
  | some c, some g => l.set c g
  | _, _ => l

/-- From `s` to `t` instruction `i` wrote `g`, or nothing, and presented the one response `r`. -/
structure Ended (i : Instr) (g : Option Context) (r : Response) (s t : State) : Prop where
  ctxs      : t.ctxs = afterWrite i g s.ctxs
  responses : t.responses = s.responses ++ [r]

/-- From `s` to `t` the entropy port and the counter of free draws stay. -/
def SameEntropy (s t : State) : Prop := t.entropy = s.entropy ∧ t.draws = s.draws

/-- Instruction `i` completes from `s` to `t` by what it finds in the contexts it names, and in the entropy port if it
samples: from every state with the same there it completes too, and writes and answers the same. -/
def Local (i : Instr) (s t : State) : Prop :=
  ∃ g r, Ended i g r s t ∧ (¬ s.Samples i → SameEntropy s t) ∧
    ∀ s' : State, s'.nctx = s.nctx → (∀ c ∈ namedContexts i, s'.ctx? c = s.ctx? c) →
      (s.Samples i → SameEntropy s s') →
      ∃ t', s'.Completes i t' ∧ Ended i g r s' t' ∧ (¬ s.Samples i → SameEntropy s' t') ∧
        (s.Samples i → SameEntropy t t')

theorem mem_namedContexts_of_written {i : Instr} {c : Nat} (h : writtenContext i = some c) : c ∈ namedContexts i := by
  cases i <;> simp_all [writtenContext, namedContexts]

/-- A complete instruction keeps the number of contexts, and every context but the one it writes (R33). -/
theorem Ended.frame {i : Instr} {g : Option Context} {r : Response} {s t : State} (h : Ended i g r s t) :
    t.nctx = s.nctx ∧ ∀ d : Nat, writtenContext i ≠ some d → t.ctx? d = s.ctx? d := by
  have hc := h.ctxs
  cases hw : writtenContext i with
  | none => simp [State.nctx, State.ctx?, hc, afterWrite, hw]
  | some c =>
    cases g with
    | none => simp [State.nctx, State.ctx?, hc, afterWrite, hw]
    | some g =>
      refine ⟨by simp [State.nctx, hc, afterWrite, hw], fun d hd => ?_⟩
      have hcd : c ≠ d := fun e => hd (e ▸ rfl)
      simp [State.ctx?, hc, afterWrite, hw, hcd]

/-- Writes to different contexts can be taken in either order. -/
theorem afterWrite_comm {i j : Instr} (h : ∀ c ∈ namedContexts i, c ∉ namedContexts j) (g g' : Option Context)
    (l : List Context) : afterWrite j g' (afterWrite i g l) = afterWrite i g (afterWrite j g' l) := by
  unfold afterWrite
  cases hi : writtenContext i <;> cases hj : writtenContext j <;> cases g <;> cases g' <;> try rfl
  exact List.set_comm _ _ fun e => h _ (mem_namedContexts_of_written hi) (e ▸ mem_namedContexts_of_written hj)

/-- An instruction that only answers. -/
theorem Local.of_respond {i : Instr} {s t : State} (hs : ¬ s.Samples i) {r : Response} (ht : t = s.respond r)
    (hx : ∀ s' : State, (∀ c ∈ namedContexts i, s'.ctx? c = s.ctx? c) → exec i s' = .next (s'.respond r)) :
    Local i s t := by
  subst ht
  have hl : ∀ l, afterWrite i none l = l := fun l => by unfold afterWrite; split <;> first | rfl | simp_all
  exact ⟨none, r, ⟨(hl _).symm, rfl⟩, fun _ => ⟨rfl, rfl⟩, fun s' _ h _ =>
    ⟨_, State.completes_of_idle (hx s' h) rfl, ⟨(hl _).symm, rfl⟩, fun _ => ⟨rfl, rfl⟩, fun h => absurd h hs⟩⟩

/-- An instruction that writes its context, answers and samples nothing. -/
theorem Local.of_wrote {i : Instr} {s t : State} (hs : ¬ s.Samples i) {c : Nat} {g : Context} {r : Response}
    (hw : writtenContext i = some c) (ht : Wrote c g [r] s t)
    (hx : ∀ s' : State, s'.nctx = s.nctx → (∀ c ∈ namedContexts i, s'.ctx? c = s.ctx? c) →
      ∃ t', s'.Completes i t' ∧ Wrote c g [r] s' t') : Local i s t := by
  have hl : ∀ l, afterWrite i (some g) l = l.set c g := fun l => by simp [afterWrite, hw]
  refine ⟨some g, r, ⟨ht.ctxs.trans (hl _).symm, ht.responses⟩, fun _ => ⟨ht.entropy, ht.draws⟩, fun s' h1 h2 _ => ?_⟩
  obtain ⟨t', hc, h⟩ := hx s' h1 h2
  exact ⟨t', hc, ⟨h.ctxs.trans (hl _).symm, h.responses⟩, fun _ => ⟨h.entropy, h.draws⟩, fun h => absurd h hs⟩

/-- An instruction that enters its loop in `u`. -/
theorem Local.of_loop {i : Instr} {s t u : State} {n : Nat} (hr : u.RunsTo n t) (hp : t.phase = .idle)
    (hbusy : u.BusyFor n) (hs : ¬ s.Samples i) (hw : writtenContext i = some u.scratch.ctx) (hub : u.phase ≠ .idle)
    (huc : u.ctxs = s.ctxs ∧ u.responses = s.responses ∧ u.entropy = s.entropy ∧ u.draws = s.draws)
    (hx : ∀ s' : State, (∀ c ∈ namedContexts i, s'.ctx? c = s.ctx? c) →
      ∃ u', exec i s' = .next u' ∧ SamePass u u' ∧ u'.ctxs = s'.ctxs ∧ u'.responses = s'.responses ∧
        u'.entropy = s'.entropy ∧ u'.draws = s'.draws) : Local i s t := by
  obtain ⟨_, g, r, _, _, _, d, _⟩ := (SamePass.refl u).run n hub hr hp hbusy
  refine Local.of_wrote hs hw ⟨by rw [d.ctxs, huc.1], by rw [d.responses, huc.2.1], d.entropy.trans huc.2.2.1,
    d.draws.trans huc.2.2.2⟩ fun s' h1 h2 => ?_
  obtain ⟨u', hu', hsame, k1, k2, k3, k4⟩ := hx s' h2
  obtain ⟨t', g', r', a, b, c, d', e⟩ := hsame.run n hub hr hp hbusy
  have hrr : r = r' := by simpa using d.responses.symm.trans d'.responses
  have hlen : s'.ctxs.length = u.ctxs.length := by rw [huc.1]; exact h1
  have hset : s'.ctxs.set u.scratch.ctx g' = s'.ctxs.set u.scratch.ctx g := by
    by_cases hlt : u.scratch.ctx < u.ctxs.length
    · have hg : g = g' := by simpa [hlt] using congrArg (·[u.scratch.ctx]?) (d.ctxs.symm.trans d'.ctxs)
      rw [hg]
    · rw [List.set_eq_of_length_le (by omega), List.set_eq_of_length_le (by omega)]
  exact ⟨t', ⟨n, u', hu', a, b, c⟩, by rw [e.ctxs, k1, hset], by rw [e.responses, k2, hrr], e.entropy.trans k3,
    e.draws.trans k4⟩

theorem State.drawEntropy_congr {s s' : State} (h : SameEntropy s s') :
    s'.drawEntropy.1 = s.drawEntropy.1 ∧ SameEntropy s.drawEntropy.2 s'.drawEntropy.2 := by
  unfold SameEntropy at *
  unfold State.drawEntropy
  rw [h.1, h.2]
  cases s.entropy <;> simp

theorem local_new {c : Nat} {seed : Option Word} {s t : State} (h : exec (.new c seed) s = .next t) :
    Local (.new c seed) s t := by
  have hn : ∀ {s' : State}, (∀ d ∈ namedContexts (.new c seed), s'.ctx? d = s.ctx? d) → s'.ctx? c = s.ctx? c :=
    fun h2 => h2 c (by simp [namedContexts])
  cases hc : s.ctx? c with
  | none =>
    rw [show exec (.new c seed) s = _ from withContext_none hc _] at h
    cases h
    have hs : ¬ s.Samples (.new c seed) := fun hs => absurd ((s.ctx?_eq_none_iff c).mp hc) (Nat.not_le_of_lt hs.1)
    exact Local.of_respond hs rfl fun s' h2 => withContext_none ((hn h2).trans hc) _
  | some g =>
    rw [show exec (.new c seed) s = _ from withContext_some hc _] at h
    cases h
    have hx : ∀ s' : State, s'.nctx = s.nctx → (∀ d ∈ namedContexts (.new c seed), s'.ctx? d = s.ctx? d) →
        s'.Completes (.new c seed) _ := fun s' _ h2 =>
      State.completes_of_idle (withContext_some ((hn h2).trans hc) _) rfl
    obtain ⟨a, rfl, ha, hs⟩ | ⟨hseed, hs⟩ := effectiveSeed_cases seed s
    · have hw : ∀ s' : State, Wrote c (seeded a) [Response.plain .ok] s' (((effectiveSeed (some a) s').2.setCtx c
          (seeded (effectiveSeed (some a) s').1)).respond (Response.plain .ok)) := fun s' => by
        constructor <;> simp [effectiveSeed, ha]
      refine Local.of_wrote (fun hx => ?_) rfl (hw s) fun s' h1 h2 => ⟨_, hx s' h1 h2, hw s'⟩
      obtain hx | hx := hx.2 <;> cases hx
      exact ha rfl
    · have hsam : s.Samples (.new c seed) := ⟨s.lt_of_ctx?_eq_some hc, hseed⟩
      refine ⟨some (seeded s.drawEntropy.1), _, ⟨by simp [hs]; rfl, by simp [hs]; rfl⟩, fun h => absurd hsam h,
        fun s' h1 h2 h3 => ?_⟩
      obtain ⟨he, hd⟩ := State.drawEntropy_congr (h3 hsam)
      have hs' : effectiveSeed seed s' = s'.drawEntropy := by obtain rfl | rfl := hseed <;> rfl
      refine ⟨_, hx s' h1 h2, ⟨by simp [hs', he]; rfl, by simp [hs']⟩, fun h => absurd hsam h, fun _ => ?_⟩
      simpa [SameEntropy, hs, hs'] using hd

/-- An instruction that needs a generator in `c` is local if it is where `c` holds one. -/
theorem Local.of_generator {i : Instr} {s t : State} {c : Nat} {k : State → Context → Result}
    (hx : ∀ s' : State, exec i s' = withGenerator c s' (k s')) (hc : c ∈ namedContexts i) (hs : ¬ s.Samples i)
    (h : s.Completes i t)
    (hk : ∀ g : Context, s.ctx? c = some g → g.valid = true →
      (∀ s' : State, (∀ d ∈ namedContexts i, s'.ctx? d = s.ctx? d) → exec i s' = k s' g) → Local i s t) :
    Local i s t := by
  have respond : ∀ r : Response, (∀ s' : State, (∀ d ∈ namedContexts i, s'.ctx? d = s.ctx? d) →
      exec i s' = .next (s'.respond r)) → Local i s t := by
    intro r hr
    obtain ⟨n, u, he, hrun, _, hbusy⟩ := h
    cases he.symm.trans (hr s fun _ _ => rfl)
    exact Local.of_respond hs (State.eq_of_busyFor_of_idle rfl hrun hbusy).symm hr
  cases hg : s.ctx? c with
  | none => exact respond _ fun s' h' => (hx s').trans (withGenerator_none ((h' c hc).trans hg) _)
  | some g =>
    cases hv : g.valid with
    | false => exact respond _ fun s' h' => (hx s').trans (withGenerator_unseeded ((h' c hc).trans hg) hv _)
    | true => exact hk g hg hv fun s' h' => (hx s').trans (withGenerator_valid ((h' c hc).trans hg) hv _)

theorem local_copy {d src : Nat} {s t : State} (h : s.Completes (.copy d src) t) : Local (.copy d src) s t := by
  obtain ⟨n, u, he, hr, hp, hbusy⟩ := h
  cases hd : s.ctx? d with
  | none =>
    cases he.symm.trans (withContext_none hd _)
    obtain rfl := State.eq_of_busyFor_of_idle rfl hr hbusy
    exact Local.of_respond id rfl fun s' h' => withContext_none ((h' d (by simp [namedContexts])).trans hd) _
  | some _ =>
    have key : ∀ s' : State, (∀ c ∈ namedContexts (.copy d src), s'.ctx? c = s.ctx? c) →
        exec (.copy d src) s' = _ ∧ s'.ctx? src = s.ctx? src := fun s' h' =>
      ⟨withContext_some ((h' d (by simp [namedContexts])).trans hd) _, h' src (by simp [namedContexts])⟩
    rw [(key s fun _ _ => rfl).1] at he
    obtain ⟨hg, hx⟩ | ⟨g, hg, hv, hx⟩ | ⟨g, hg, hv, hx⟩ := withGenerator_cases src s fun g =>
      .next ((s.setCtx d { s0 := g.s0, s1 := g.s1, valid := true }).respond (Response.plain .ok)) <;>
      cases he.symm.trans hx <;> obtain rfl := State.eq_of_busyFor_of_idle rfl hr hbusy
    · exact Local.of_respond id rfl fun s' h' => (key s' h').1.trans (withGenerator_none ((key s' h').2.trans hg) _)
    · exact Local.of_respond id rfl fun s' h' =>
        (key s' h').1.trans (withGenerator_unseeded ((key s' h').2.trans hg) hv _)
    · exact Local.of_wrote id rfl ⟨rfl, rfl, rfl, rfl⟩ fun s' _ h' => ⟨_, State.completes_of_idle
        ((key s' h').1.trans (withGenerator_valid ((key s' h').2.trans hg) hv _)) rfl, rfl, rfl, rfl, rfl⟩

theorem local_range {c : Nat} {lo hi : Word} {s t : State} (h : s.Completes (.range c lo hi) t) :
    Local (.range c lo hi) s t := by
  refine Local.of_generator (c := c) (fun _ => rfl) (by simp [namedContexts]) id h fun g hg _ hx => ?_
  obtain ⟨n, u, he, hr, hp, hbusy⟩ := h
  rw [hx s fun _ _ => rfl] at he
  obtain heq | hgt | hlt : lo = hi ∨ hi < lo ∨ lo < hi := by
    simp only [BitVec.lt_def, ← BitVec.toNat_inj]
    omega
  · simp only [heq, if_true] at he
    cases he
    obtain rfl := State.eq_of_busyFor_of_idle rfl hr hbusy
    exact Local.of_respond id rfl fun s' h' => (hx s' h').trans (by simp only [heq, if_true])
  · have hne : lo ≠ hi := fun e => absurd (e ▸ hgt) (BitVec.lt_irrefl _)
    simp only [hne, if_false, gt_iff_lt, hgt, if_true] at he
    cases he
    obtain rfl := State.eq_of_busyFor_of_idle rfl hr hbusy
    exact Local.of_respond id rfl fun s' h' =>
      (hx s' h').trans (by simp only [hne, if_false, gt_iff_lt, hgt, if_true])
  · have hne : lo ≠ hi := fun e => absurd (e ▸ hlt) (BitVec.lt_irrefl _)
    have hng : ¬ hi < lo := fun e => absurd (BitVec.lt_trans hlt e) (BitVec.lt_irrefl _)
    simp only [hne, if_false, gt_iff_lt, hng, rangeParams_of_lt hlt] at he
    cases he
    refine Local.of_loop hr hp hbusy id rfl (by simp) ⟨rfl, rfl, rfl, rfl⟩ fun s' h' => ?_
    refine ⟨{ s' with
        phase := .drawing
        scratch := { s'.scratch with
          ctx := c, minL := lo, range := sub64 hi lo, bucketSize := randMax / sub64 hi lo
          threshold := sub64 randMax (randMax % sub64 hi lo) } },
      (hx s' h').trans (by simp only [hne, if_false, gt_iff_lt, hng, rangeParams_of_lt hlt]), ?_, rfl, rfl, rfl, rfl⟩
    exact ⟨rfl, rfl, (h' c (by simp [namedContexts])).symm, fun h => (by cases h), fun h => (by cases h),
      fun h => (by cases h), fun _ => rfl, fun _ => rfl, fun _ => rfl⟩

/-- Every complete instruction is local (R33, R60). -/
theorem State.Completes.local {i : Instr} {s t : State} (h : s.Completes i t) : Local i s t := by
  obtain ⟨n, u, he, hr, hp, hbusy⟩ := id h
  cases i with
  | mix k =>
    cases he
    exact Local.of_respond id (State.eq_of_busyFor_of_idle rfl hr hbusy).symm fun _ _ => rfl
  | rdmax =>
    cases he
    exact Local.of_respond id (State.eq_of_busyFor_of_idle rfl hr hbusy).symm fun _ _ => rfl
  | new c seed =>
    have hu : u.phase = .idle := by
      obtain ⟨_, hx⟩ | ⟨g, _, hx⟩ := withContext_cases c s fun _ =>
        .next (((effectiveSeed seed s).2.setCtx c (seeded (effectiveSeed seed s).1)).respond (Response.plain .ok)) <;>
      · cases he.symm.trans hx
        rfl
    obtain rfl := State.eq_of_busyFor_of_idle hu hr hbusy
    exact local_new he
  | copy d src => exact local_copy h
  | next c =>
    refine Local.of_generator (c := c) (fun _ => rfl) (by simp [namedContexts]) id h fun g _ _ hx => ?_
    cases he.symm.trans (hx s fun _ _ => rfl)
    obtain rfl := State.eq_of_busyFor_of_idle rfl hr hbusy
    exact Local.of_wrote id rfl ⟨rfl, rfl, rfl, rfl⟩ fun s' _ h' =>
      ⟨_, State.completes_of_idle (hx s' h') rfl, rfl, rfl, rfl, rfl⟩
  | jump c =>
    refine Local.of_generator (c := c) (fun _ => rfl) (by simp [namedContexts]) id h fun g _ _ hx => ?_
    cases he.symm.trans (hx s fun _ _ => rfl)
    refine Local.of_loop hr hp hbusy id rfl (by simp) ⟨rfl, rfl, rfl, rfl⟩ fun s' h' => ⟨_, hx s' h', ?_, rfl, rfl, rfl, rfl⟩
    exact ⟨rfl, rfl, (h' c (by simp [namedContexts])).symm, fun _ => rfl, fun _ => rfl, fun _ => rfl,
      fun h => (by cases h), fun h => (by cases h), fun h => (by cases h)⟩
  | range c lo hi => exact local_range h

end Sys2Proof.Machine
end

