-- ==== Sys2Proof/Laws/PerInstr.lean ====
section
/-! SUPPORT. A statement for every instruction as syntax: its encoding selects the row of its own operation (R76, R82). -/

namespace Sys2Proof.Laws

/-- A header as its four bytes, and the 7 must-be-zero bits with `sp` as the lowest of them (R71). -/
theorem encodeHeader_eq_append (op : Opcode) (ctx src : Nat) (sp : Bool) :
    encodeHeader op ctx src sp =
      (BitVec.ofNat 8 op.row.code ++ BitVec.ofNat 8 ctx ++ BitVec.ofNat 8 src ++ (0#7 ++ BitVec.ofBool sp) :
        BitVec 32) := by
  simp only [encodeHeader, BitVec.append_assoc, BitVec.cast_eq]

/-- Masking acts on the four bytes of a header separately. -/
theorem append_and_append (a b c d a' b' c' d' : Byte) :
    (a ++ b ++ c ++ d : BitVec 32) &&& (a' ++ b' ++ c' ++ d' : BitVec 32) =
      ((a &&& a') ++ (b &&& b') ++ (c &&& c') ++ (d &&& d') : BitVec 32) := by
  rw [BitVec.and_append, BitVec.and_append, BitVec.and_append]

/-- The encoding of an instruction selects its own row of the opcode map. -/
def EncodesOwnRow.Statement (i : Instr) : Prop := i.opcode.row.selects (encode i).h = true

/-- A row selects the encoded header of its operation when the free fields it does not have are 0. -/
theorem selects_encodeHeader (op : Opcode) (ctx src : Nat) (sp : Bool)
    (m1 m2 m3 : Byte) (hm : op.row.mask = (0xFF#8 ++ m1 ++ m2 ++ m3 : BitVec 32))
    (hpat : op.row.pattern = (BitVec.ofNat 8 op.row.code ++ 0#8 ++ 0#8 ++ 0#8 : BitVec 32))
    (h1 : BitVec.ofNat 8 ctx &&& m1 = 0#8) (h2 : BitVec.ofNat 8 src &&& m2 = 0#8)
    (h3 : (0#7 ++ BitVec.ofBool sp : Byte) &&& m3 = 0#8) :
    op.row.selects (encodeHeader op ctx src sp) = true := by
  have hcode : BitVec.ofNat 8 op.row.code &&& 0xFF#8 = BitVec.ofNat 8 op.row.code := BitVec.and_allOnes
  simp only [OpcodeRow.selects, beq_iff_eq]
  rw [encodeHeader_eq_append, hm, hpat, append_and_append, h1, h2, h3, hcode]

theorem EncodesOwnRow.new (ctx : Nat) (seed : Option Word) : EncodesOwnRow.Statement (.new ctx seed) := by
  cases seed with
  | none => exact selects_encodeHeader .new _ _ _ 0 0xFF#8 0xFE#8 rfl rfl (by simp) rfl rfl
  | some a => exact selects_encodeHeader .new _ _ _ 0 0xFF#8 0xFE#8 rfl rfl (by simp) rfl rfl

theorem EncodesOwnRow.copy (ctx src : Nat) : EncodesOwnRow.Statement (.copy ctx src) :=
  selects_encodeHeader .copy _ _ _ 0 0 0xFF#8 rfl rfl (by simp) (by simp) rfl

theorem EncodesOwnRow.jump (ctx : Nat) : EncodesOwnRow.Statement (.jump ctx) :=
  selects_encodeHeader .jump _ _ _ 0 0xFF#8 0xFF#8 rfl rfl (by simp) rfl rfl

theorem EncodesOwnRow.next (ctx : Nat) : EncodesOwnRow.Statement (.next ctx) :=
  selects_encodeHeader .next _ _ _ 0 0xFF#8 0xFF#8 rfl rfl (by simp) rfl rfl

theorem EncodesOwnRow.range (ctx : Nat) (min max : Word) : EncodesOwnRow.Statement (.range ctx min max) :=
  selects_encodeHeader .range _ _ _ 0 0xFF#8 0xFF#8 rfl rfl (by simp) rfl rfl

theorem EncodesOwnRow.mix (n : Word) : EncodesOwnRow.Statement (.mix n) :=
  selects_encodeHeader .mix _ _ _ 0xFF#8 0xFF#8 0xFF#8 rfl rfl rfl rfl rfl

theorem EncodesOwnRow.rdmax : EncodesOwnRow.Statement .rdmax :=
  selects_encodeHeader .rdmax _ _ _ 0xFF#8 0xFF#8 0xFF#8 rfl rfl rfl rfl rfl

end Sys2Proof.Laws
end

