-- ==== Sys2Proof/Tests/Slice0.lean ====
section
/-! SUPPORT. The model's own tests. Expected values are taken from the spec's tables and worked examples (the source of each
is named), never from the model. The last part shows, for each statement with hypotheses, a case that meets them. -/

namespace Sys2Proof.Tests

open Sys2Proof Sys2Proof.Machine

/-! ## Helpers -/

/-- The contexts of a next state. -/
def contextsAfter : Result → Option (List Context)
  | .next t => some t.ctxs
  | _ => none

/-- The responses of a next state, as the words `R` and `D`. -/
def portAfter : Result → Option (List (Header × Word))
  | .next t => some (t.responses.map fun r => (r.header, r.data))
  | _ => none

/-- The phase of a next state. -/
def phaseAfter : Result → Option Phase
  | .next t => some t.phase
  | _ => none

/-- Four contexts (NCTX = 4), the first with these words, the others unseeded. -/
def oneSeeded (w0 w1 : Word) : State :=
  { State.resetOf 4 with ctxs := [⟨w0, w1, true⟩, Context.unseeded, Context.unseeded, Context.unseeded] }

/-- The state of 95_test_vectors.md 2.3: two generators and two unseeded contexts. -/
def twoSeeded : State :=
  { State.resetOf 4 with
    ctxs := [⟨0x910A2DEC89025CC1#64, 1#64, true⟩, ⟨0xBDD732262FEB6E95#64, 0x2A#64, true⟩, Context.unseeded,
      Context.unseeded] }

/-- `s` with this command presented. -/
def presenting (s : State) (h : Header) (a b : Word) : State := { s with commands := [⟨h, a, b⟩] }

/-! ## Well-formedness: an ill-formed term for each check (R83: indices 0 to 255) -/

theorem test_wf_new : ¬ WellFormed (.new 256 none) ∧ WellFormed (.new 255 none) := by decide
theorem test_wf_copy_destination : ¬ WellFormed (.copy 256 0) ∧ WellFormed (.copy 255 255) := by decide
theorem test_wf_copy_source : ¬ WellFormed (.copy 0 256) := by decide
theorem test_wf_jump : ¬ WellFormed (.jump 256) ∧ WellFormed (.jump 255) := by decide
theorem test_wf_next : ¬ WellFormed (.next 256) ∧ WellFormed (.next 255) := by decide
theorem test_wf_range : ¬ WellFormed (.range 256 0#64 1#64) ∧ WellFormed (.range 255 0#64 1#64) := by decide

/-! ## Decoding: words written from the bit pattern of each row (opcode_table.json, R71, R76) -/

theorem test_decode_new :
    decode ⟨0b00000001110000110000000000000001#32, 9#64, 0#64⟩ = .ok (.new 0b11000011 (some 9#64)) := by decide
theorem test_decode_new_without_seed :
    decode ⟨0b00000001000000100000000000000000#32, 9#64, 0#64⟩ = .ok (.new 2 none) := by decide
theorem test_decode_copy :
    decode ⟨0b00000010100000010111111000000000#32, 0#64, 0#64⟩ = .ok (.copy 0b10000001 0b01111110) := by decide
theorem test_decode_jump :
    decode ⟨0b00000011010101010000000000000000#32, 0#64, 0#64⟩ = .ok (.jump 0b01010101) := by decide
theorem test_decode_next :
    decode ⟨0b00000100101010100000000000000000#32, 0#64, 0#64⟩ = .ok (.next 0b10101010) := by decide
theorem test_decode_range :
    decode ⟨0b00000101000001110000000000000000#32, 5#64, 6#64⟩ = .ok (.range 7 5#64 6#64) := by decide
theorem test_decode_mix : decode ⟨0b00000110000000000000000000000000#32, 5#64, 6#64⟩ = .ok (.mix 5#64) := by decide
theorem test_decode_rdmax : decode ⟨0b00000111000000000000000000000000#32, 5#64, 6#64⟩ = .ok .rdmax := by decide

/-- The illegal headers of 95_test_vectors.md 2.8. -/
theorem test_decode_illegal :
    ([0x00000000#32, 0x08000000#32, 0xFF000000#32, 0x04000100#32, 0x04090002#32, 0x06010000#32, 0x01000301#32,
      0x02020001#32, 0x03000080#32, 0x05000001#32, 0x07000001#32, 0x01000003#32].all fun h =>
        !legalHeader h && (decode ⟨h, 0#64, 0#64⟩).toOption.isNone) = true := by decide

/-- R86: the bytes of RANGE g0, 10, 20, followed by one byte more. -/
theorem test_decode_bytes :
    decodeBytes [0x00#8, 0x00#8, 0x00#8, 0x05#8, 0x0A#8, 0x00#8, 0x00#8, 0x00#8, 0x00#8, 0x00#8, 0x00#8, 0x00#8, 0x14#8,
      0x00#8, 0x00#8, 0x00#8, 0x00#8, 0x00#8, 0x00#8, 0x00#8, 0xFF#8] =
      .ok (.range 0 10#64 20#64, [0xFF#8]) := by decide

theorem test_decode_bytes_truncated : decodeBytes [0x00#8, 0x00#8] = .error .truncated := by decide

/-- 95_test_vectors.md P4, the bytes of command 6. -/
theorem test_encode_bytes :
    (Command.mk 0x04090002#32 0#64 0#64).toBytes = [0x02#8, 0x00#8, 0x09#8, 0x04#8] ++ List.replicate 16 0#8 := by decide

/-- 95_test_vectors.md P1, the bytes of response 2. -/
theorem test_response_bytes :
    (Response.value 0xBDD732262FEB6EBF#64).toBytes =
      [0x00#8, 0x01#8, 0x00#8, 0x00#8, 0xBF#8, 0x6E#8, 0xEB#8, 0x2F#8, 0x26#8, 0x32#8, 0xD7#8, 0xBD#8] := by decide

/-- A word of the opcode table, and a number of bits that cuts it off. -/
theorem test_table_word : decodeTableWord 32 0x04020000 = some (.next 2) ∧ decodeTableWord 24 0x04020000 = none := by
  decide

/-- R81, R82: lines of assembly. -/
theorem test_assembly :
    asmLine (.copy 1 200) = "COPY g1, g200" ∧ asmLine (.mix 0xAB#64) = "MIX 0x00000000000000AB" ∧
      (Response.plain .errUnseeded).asm = "ERR_UNSEEDED" := by decide

/-! ## The primitives (examples of R12 to R17) -/

theorem test_rotl64 :
    rotl64 0x0000000000000001#64 55 = 0x0080000000000000#64 ∧ rotl64 0x8000000000000001#64 36 = 0x0000001800000000#64 := by
  decide

theorem test_udiv64 : udiv64 7#64 0#64 = none ∧ udiv64 7#64 2#64 = some 3#64 ∧ umod64 7#64 2#64 = some 1#64 := by decide

/-- R20: comparison is unsigned. -/
theorem test_unsigned : 0x8000000000000000#64 > 0x7FFFFFFFFFFFFFFF#64 := by decide

/-! ## The commands -/

/-- R114, fourth row: A is ignored when sp = 0, and a draw of 0 is used as it is. -/
theorem test_new_draw_zero :
    contextsAfter (step (presenting { State.resetOf 1 with entropy := [0#64] } 0x01000000#32 0x1234#64 0#64)) =
      some [⟨0xE220A8397B1DCDAF#64, 0#64, true⟩] := by decide

/-- R114, fifth row: the seed 0 is treated as omitted; 2.2, first row: a seed is used as it is. -/
theorem test_new_seed_zero_and_one :
    contextsAfter (step (presenting { State.resetOf 1 with entropy := [0x2A#64] } 0x01000001#32 0#64 0#64)) =
        some [⟨0xBDD732262FEB6E95#64, 0x2A#64, true⟩] ∧
      contextsAfter (step (presenting { State.resetOf 1 with entropy := [0x2A#64] } 0x01000001#32 1#64 0#64)) =
        some [⟨0x910A2DEC89025CC1#64, 1#64, true⟩] := by decide

/-- 2.3, second row: onto a valid context, whose generator is lost. -/
theorem test_copy_overwrites :
    (contextsAfter (step (presenting twoSeeded 0x02010000#32 0#64 0#64))).map (·[1]?) =
      some (some ⟨0x910A2DEC89025CC1#64, 1#64, true⟩) := by decide

/-- 2.3, fourth and eighth rows: ERR_UNSEEDED for the source alone, ERR_RECEIVER before it. -/
theorem test_copy_errors :
    portAfter (step (presenting twoSeeded 0x02000200#32 0#64 0#64)) = some [(0x00000003#32, 0#64)] ∧
      portAfter (step (presenting twoSeeded 0x02040200#32 0#64 0#64)) = some [(0x00000002#32, 0#64)] := by decide

/-- R132: the worked example. -/
theorem test_next :
    contextsAfter (step (presenting (oneSeeded 1#64 2#64) 0x04000000#32 0#64 0#64)) =
        some [⟨0x008000000000C003#64, 0x0000003000000000#64, true⟩, Context.unseeded, Context.unseeded,
          Context.unseeded] ∧
      portAfter (step (presenting (oneSeeded 1#64 2#64) 0x04000000#32 0#64 0#64)) = some [(0x00000100#32, 3#64)] := by
  decide

/-- R134, fourth row: the sum wraps to 0. -/
theorem test_next_wraps :
    portAfter (step (presenting (oneSeeded 0xFFFFFFFFFFFFFFFF#64 1#64) 0x04000000#32 0#64 0#64)) =
      some [(0x00000100#32, 0#64)] := by decide

/-- R146: the rows after NEW g, 1 and after a draw of 0. -/
theorem test_jump_words :
    jumpWords (0x910A2DEC89025CC1#64, 1#64) = (0x172D4A316D1D4A2B#64, 0x06FE1C12ACD10A5A#64) ∧
      jumpWords (0xE220A8397B1DCDAF#64, 0#64) = (0x54E14510FE88CCC0#64, 0x6A615F3F20FAAD26#64) := by
  decide +kernel

/-- R144, the trace's row k = 1: two passes from (1, 2). -/
theorem test_jump_pass :
    (match Host.Core.run core 3 (presenting (oneSeeded 1#64 2#64) 0x03000000#32 0#64 0#64) with
      | .next t => decide (t.phase = .jumping ∧ t.scratch.iter = 2#7 ∧ t.scratch.acc0 = 0x008000000000C002#64 ∧
          t.scratch.acc1 = 0x0000003000000002#64 ∧ t.Holds 0 (0x010C403030000063#64, 0x000C003008000300#64))
      | _ => false) = true := by decide

/-- R161, the row with r = threshold = `0xFFFFFFFFFFFFFFFC` and range 4: the first pass is rejected. -/
theorem test_range_rejects :
    (match Host.Core.run core 3 (presenting (oneSeeded 0xFFFFFFFFFFFFFFFC#64 0#64) 0x05000000#32 0#64 4#64) with
      | .next t => decide (t.phase = .idle ∧ t.responses = [Response.value 3#64] ∧
          t.Holds 0 (0x00733FCFC000007C#64, 0x000FFFC018000300#64))
      | _ => false) = true := by decide

/-- R151 and 2.6: both edge cases, and validity before the edge policy (D26). -/
theorem test_range_edges :
    portAfter (step (presenting (oneSeeded 1#64 2#64) 0x05000000#32 5#64 5#64)) = some [(0x00000100#32, 5#64)] ∧
      portAfter (step (presenting (oneSeeded 1#64 2#64) 0x05000000#32 10#64 3#64)) = some [(0x00000100#32, 0#64)] ∧
      portAfter (step (presenting (oneSeeded 1#64 2#64) 0x05030000#32 5#64 5#64)) = some [(0x00000003#32, 0#64)] := by
  decide

/-- R160: the parameters of the ranges 10 and 2^63. -/
theorem test_range_parameters :
    rangeParams 10#64 20#64 = some ⟨10#64, 0x1999999999999999#64, 0xFFFFFFFFFFFFFFFA#64⟩ ∧
      rangeParams 0#64 0x8000000000000000#64 =
        some ⟨0x8000000000000000#64, 1#64, 0x8000000000000000#64⟩ := by decide

/-- R102: the known answer at the port, from reset. -/
theorem test_mix :
    portAfter (step (presenting State.reset 0x06000000#32 0#64 7#64)) =
      some [(0x00000100#32, 0xE220A8397B1DCDAF#64)] := by decide

/-- R170: the exposed constant, from reset. -/
theorem test_rdmax :
    portAfter (step (presenting State.reset 0x07000000#32 3#64 7#64)) =
      some [(0x00000100#32, 0xFFFFFFFFFFFFFFFF#64)] := by decide

/-- R186: the four examples of the priority of errors, with no context valid. -/
theorem test_error_priority :
    portAfter (step (presenting State.reset 0x04090002#32 0#64 0#64)) = some [(0x00000001#32, 0#64)] ∧
      portAfter (step (presenting State.reset 0x04090000#32 0#64 0#64)) = some [(0x00000002#32, 0#64)] ∧
      portAfter (step (presenting State.reset 0x02010700#32 0#64 0#64)) = some [(0x00000002#32, 0#64)] ∧
      portAfter (step (presenting State.reset 0x02010000#32 0#64 0#64)) = some [(0x00000003#32, 0#64)] := by decide

/-- The word presented by `withFetchWord` is the one that runs. -/
theorem test_fetch_word :
    phaseAfter (step ((oneSeeded 1#64 2#64).withFetchWord 32 0x03000000)) = some .jumping := by decide

/-! ## For each statement with hypotheses, cases that meet them -/

theorem witness_ArithmeticWraps : (1#64).toNat ≤ (1#64).toNat ∧ (0#64).toNat < (1#64).toNat := by decide

theorem witness_ShiftAndRotationBits : ShiftAmount 1 ∧ ShiftAmount 63 ∧ ShiftAmount 55 ∧ 0 < 64 ∧ 63 < 64 := by decide

theorem witness_DivisionByNonzeroOnly : (1#64 : Word) ≠ 0#64 := by decide

theorem witness_PureCommands :
    opcodeField 0x06000000#32 = 6 ∧ opcodeField 0x06000001#32 = 6 ∧ opcodeField 0x07000000#32 = 7 ∧
      opcodeField 0x07FF0000#32 = 7 := by decide

theorem witness_StepBitByBit : 0 < 64 ∧ 13 < 64 ∧ 14 < 64 ∧ 63 < 64 := by decide

theorem witness_NextCompletes : (oneSeeded 1#64 2#64).Holds 0 (1#64, 2#64) := by decide

/-- Every branch: illegal, no such context, no generator, a generator. -/
theorem witness_NextCommand :
    (opcodeField 0x04000001#32 = 4 ∧ spBit 0x04000001#32 = true) ∧
      (opcodeField 0x04040000#32 = 4 ∧ (oneSeeded 1#64 2#64).ctx? (ctxField 0x04040000#32) = none) ∧
      (opcodeField 0x04030000#32 = 4 ∧ (oneSeeded 1#64 2#64).ctx? (ctxField 0x04030000#32) = some Context.unseeded) ∧
      (opcodeField 0x04000000#32 = 4 ∧ (oneSeeded 1#64 2#64).Holds (ctxField 0x04000000#32) (1#64, 2#64)) := by decide

/-- A state that presents two NEXT commands on its generator. -/
def twoNexts : State := { oneSeeded 1#64 2#64 with commands := [encode (.next 0), encode (.next 0)] }

theorem witness_NextsDrawTheStream :
    twoNexts.phase = .idle ∧ 0 < 256 ∧ twoNexts.Holds 0 (1#64, 2#64) ∧
      twoNexts.commands = List.replicate 2 (encode (.next 0)) ++ [] := by decide

theorem witness_NewFromSeedCompletes : 3 < State.reset.nctx ∧ (1#64 : Word) ≠ 0#64 := by decide

/-- A scripted draw, and a free one. -/
theorem witness_NewFromDrawCompletes :
    (3 < (State.resetOf 4).nctx ∧ ({ State.resetOf 4 with entropy := [0#64] } : State).entropy = 0#64 :: []) ∧
      (State.resetOf 4).entropy = [] := by decide

/-- Illegal, no such context, a usable seed, and a draw three times: no seed, the seed 0, and a scripted draw. -/
theorem witness_NewCommand :
    (opcodeField 0x01000100#32 = 1 ∧ srcField 0x01000100#32 ≠ 0) ∧
      (opcodeField 0x01040001#32 = 1 ∧ ¬ (srcField 0x01040001#32 ≠ 0 ∨ zeroField 0x01040001#32 ≠ 0) ∧
        twoSeeded.nctx ≤ ctxField 0x01040001#32) ∧
      (opcodeField 0x01030001#32 = 1 ∧ ¬ (srcField 0x01030001#32 ≠ 0 ∨ zeroField 0x01030001#32 ≠ 0) ∧
        ctxField 0x01030001#32 < twoSeeded.nctx ∧ spBit 0x01030001#32 = true ∧ (1#64 : Word) ≠ 0#64) ∧
      (opcodeField 0x01030000#32 = 1 ∧ ¬ (srcField 0x01030000#32 ≠ 0 ∨ zeroField 0x01030000#32 ≠ 0) ∧
        ctxField 0x01030000#32 < twoSeeded.nctx ∧ ¬ (spBit 0x01030000#32 = true ∧ (1#64 : Word) ≠ 0#64) ∧
        ¬ (spBit 0x01030001#32 = true ∧ (0#64 : Word) ≠ 0#64) ∧ twoSeeded.entropy = [] ∧
        ({ twoSeeded with entropy := [7#64] } : State).entropy = 7#64 :: []) := by decide

/-- A state that presents NEW g0, 1 and then NEXT g0. -/
def newThenNext : State := { State.resetOf 4 with commands := [encode (.new 0 (some 1#64)), encode (.next 0)] }

theorem witness_SeedFixesTheStream :
    newThenNext.phase = .idle ∧ 0 < 256 ∧ 0 < newThenNext.nctx ∧ (1#64 : Word) ≠ 0#64 ∧
      newThenNext.commands = encode (.new 0 (some 1#64)) :: (List.replicate 1 (encode (.next 0)) ++ []) := by decide

theorem witness_CopyCompletes :
    3 < twoSeeded.nctx ∧ 0 < twoSeeded.nctx ∧ twoSeeded.Holds 0 (0x910A2DEC89025CC1#64, 1#64) := by decide

theorem witness_CopyCommand :
    (opcodeField 0x02020001#32 = 2 ∧ spBit 0x02020001#32 = true) ∧
      (opcodeField 0x02040000#32 = 2 ∧ twoSeeded.nctx ≤ ctxField 0x02040000#32) ∧
      (opcodeField 0x02000400#32 = 2 ∧ twoSeeded.ctx? (srcField 0x02000400#32) = none) ∧
      (opcodeField 0x02000200#32 = 2 ∧ twoSeeded.ctx? (srcField 0x02000200#32) = some Context.unseeded) ∧
      (opcodeField 0x02020000#32 = 2 ∧ (twoSeeded.ctx? (srcField 0x02020000#32)).isSome = true) := by decide

/-- Onto another context, where NEXT on either of the two completes and leaves the other, and onto itself. -/
theorem witness_CopyIsTheSameStream :
    (3 < twoSeeded.nctx ∧ 3 ≠ 1 ∧ twoSeeded.Holds 1 (0xBDD732262FEB6E95#64, 0x2A#64)) ∧ 1 < twoSeeded.nctx ∧
      writtenContext (.next 3) ≠ some 1 ∧ writtenContext (.next 1) ≠ some 3 ∧
      ∃ t x y, exec (.copy 3 1) twoSeeded = .next t ∧ t.Completes (.next 3) x ∧ t.Completes (.next 1) y :=
  ⟨by decide, by decide, by decide, by decide, _, _, _, rfl, State.completes_of_idle rfl rfl,
    State.completes_of_idle rfl rfl⟩

theorem witness_JumpBitCounts : 0 < 128 ∧ 63 < 128 ∧ 64 < 128 ∧ 127 < 128 := by decide

theorem witness_JumpCompletesIn128Passes : twoSeeded.Holds 1 (0xBDD732262FEB6E95#64, 0x2A#64) := by decide

theorem witness_JumpCommand :
    (opcodeField 0x03000080#32 = 3 ∧ zeroField 0x03000080#32 ≠ 0) ∧
      (opcodeField 0x03040000#32 = 3 ∧ twoSeeded.ctx? (ctxField 0x03040000#32) = none) ∧
      (opcodeField 0x03020000#32 = 3 ∧ twoSeeded.ctx? (ctxField 0x03020000#32) = some Context.unseeded) ∧
      (opcodeField 0x03000000#32 = 3 ∧ twoSeeded.Holds (ctxField 0x03000000#32) (0x910A2DEC89025CC1#64, 1#64)) := by
  decide

/-- A state that presents FORK g1, g0, 2. -/
def forkTwice : State := { oneSeeded 1#64 2#64 with commands := assemble (forkExpansion 1 0 2) }

/-- The same, FORK g0, g0, 0. -/
def forkOnItself : State := { oneSeeded 1#64 2#64 with commands := assemble (forkExpansion 0 0 0) }

theorem witness_ForkMakesTheKthStream :
    (forkTwice.phase = .idle ∧ 1 < 256 ∧ 0 < 256 ∧ 1 < forkTwice.nctx ∧ forkTwice.Holds 0 (1#64, 2#64) ∧
        forkTwice.commands = assemble (forkExpansion 1 0 2) ++ []) ∧
      (forkOnItself.phase = .idle ∧ 0 < forkOnItself.nctx ∧ forkOnItself.Holds 0 (1#64, 2#64) ∧
        forkOnItself.commands = assemble (forkExpansion 0 0 0) ++ []) := by decide

theorem witness_RangeEdgePolicy :
    (oneSeeded 1#64 2#64).Holds 0 (1#64, 2#64) ∧ (5#64 : Word) = 5#64 ∧ (7#64).toNat < (8#64).toNat := by decide

/-- The smallest interval and the largest. -/
theorem witness_RangeParameters :
    (100#64).toNat < (101#64).toNat ∧ (0#64).toNat < (0xFFFFFFFFFFFFFFFF#64).toNat := by decide

/-- The raw values 0 and threshold - 1 of the interval [10, 20). -/
theorem witness_ReducedValueIsInInterval :
    ∃ p, rangeParams 10#64 20#64 = some p ∧ (10#64).toNat < (20#64).toNat ∧ (0#64).toNat < p.threshold.toNat ∧
      (0xFFFFFFFFFFFFFFF9#64).toNat < p.threshold.toNat := ⟨_, rfl, by decide, by decide, by decide⟩

/-- The first and the last quotient of the interval [10, 20). -/
theorem witness_BucketsAreEqual :
    ∃ p, rangeParams 10#64 20#64 = some p ∧ (10#64).toNat < (20#64).toNat ∧ 0 < p.range.toNat ∧ 9 < p.range.toNat :=
  ⟨_, rfl, by decide, by decide, by decide⟩

theorem witness_RangeStartsDrawing :
    (oneSeeded 1#64 2#64).Holds 0 (1#64, 2#64) ∧ (10#64).toNat < (20#64).toNat := by decide

/-- R161: no rejection, and one rejection. -/
theorem witness_RangeCompletesAtFirstAccepted :
    (∃ p, rangeParams 10#64 20#64 = some p ∧ (oneSeeded 1#64 2#64).Holds 0 (1#64, 2#64) ∧
      (stepOutput (stepMap^[0] (1#64, 2#64))).toNat < p.threshold.toNat) ∧
    (∃ p, rangeParams 0#64 4#64 = some p ∧
      (oneSeeded 0xFFFFFFFFFFFFFFFC#64 0#64).Holds 0 (0xFFFFFFFFFFFFFFFC#64, 0#64) ∧
      (∀ k : Nat, k < 1 → p.threshold.toNat ≤ (stepOutput (stepMap^[k] (0xFFFFFFFFFFFFFFFC#64, 0#64))).toNat) ∧
      (stepOutput (stepMap^[1] (0xFFFFFFFFFFFFFFFC#64, 0#64))).toNat < p.threshold.toNat) :=
  ⟨⟨_, rfl, by decide, by decide⟩, ⟨_, rfl, by decide, by decide, by decide⟩⟩

/-- Illegal, no such context, no generator; then, on a generator, A = B, A > B and A < B. -/
theorem witness_RangeCommand :
    (opcodeField 0x05000001#32 = 5 ∧ spBit 0x05000001#32 = true) ∧
      (opcodeField 0x05040000#32 = 5 ∧ twoSeeded.ctx? (ctxField 0x05040000#32) = none) ∧
      (opcodeField 0x05020000#32 = 5 ∧ twoSeeded.ctx? (ctxField 0x05020000#32) = some Context.unseeded) ∧
      (opcodeField 0x05000000#32 = 5 ∧ srcField 0x05000000#32 = 0 ∧ zeroField 0x05000000#32 = 0 ∧
        spBit 0x05000000#32 = false ∧ twoSeeded.Holds (ctxField 0x05000000#32) (0x910A2DEC89025CC1#64, 1#64) ∧
        (5#64 : Word) = 5#64 ∧ ((3#64 : Word) ≠ 10#64 ∧ (3#64 : Word) < 10#64) ∧
        ((20#64 : Word) ≠ 10#64 ∧ ¬ (20#64 : Word) < 10#64)) := by decide

theorem witness_EveryRangeEnds :
    (oneSeeded 0x8000000000000000#64 0#64).Holds 0 (0x8000000000000000#64, 0#64) ∧
      (0#64).toNat < (0x8000000000000000#64).toNat := by decide

theorem witness_DecodeOfEncode :
    WellFormed (.new 255 (some 0#64)) ∧ WellFormed (.copy 255 255) ∧ WellFormed (.range 0 0#64 0#64) := by decide

theorem witness_EncodeOfDecode : decode ⟨0x01FF0000#32, 7#64, 8#64⟩ = .ok (.new 255 none) := by decide

theorem witness_DecodingIsUnambiguous :
    Opcode.new.row ∈ opcodeTable ∧ Opcode.new.row.selects 0x01FF0001#32 = true ∧
      Opcode.rdmax.row ∈ opcodeTable ∧ Opcode.rdmax.row.selects 0x07000000#32 = true := by decide

theorem witness_IllegalHeadersDoNothing :
    decode ⟨0x00000000#32, 0#64, 0#64⟩ = .error (.unknownOpcode 0) ∧
      decode ⟨0x01000002#32, 0#64, 0#64⟩ = .error (.mustBeZero "NEW") := by decide

theorem witness_IgnoredWordsDoNotMatter : decode ⟨0x04000000#32, 1#64, 2#64⟩ = .ok (.next 0) := by decide

theorem witness_ResponsesAreOfFiveKinds :
    step (presenting State.reset 0x07000000#32 0#64 0#64) = .next (State.reset.respond (Response.value randMax)) := rfl

/-- Each of the three clauses: a context that does not exist, one without a generator, a generator. -/
theorem witness_StatusOfEveryInstruction :
    (4 ∈ namedContexts (.copy 0 4) ∧ twoSeeded.nctx ≤ 4) ∧
      ((∀ c ∈ namedContexts (.copy 0 2), c < twoSeeded.nctx) ∧ 2 ∈ neededGenerators (.copy 0 2) ∧
        twoSeeded.ctx? 2 = some Context.unseeded) ∧
      ((∀ c ∈ namedContexts (.copy 3 0), c < twoSeeded.nctx) ∧ neededGenerators (.copy 3 0) = [0] ∧
        twoSeeded.Holds 0 (0x910A2DEC89025CC1#64, 1#64)) := by decide

theorem witness_ErrorsWriteNothing :
    runCommand ⟨0x04000000#32, 0#64, 0#64⟩ State.reset = .next (State.reset.respond (Response.plain .errUnseeded)) ∧
      (Response.plain .errUnseeded).status ≠ .ok := ⟨rfl, by decide⟩

theorem witness_ResetLeaves : 0 < 1 ∧ 255 < 256 := by decide

theorem witness_ResetEventClears : twoSeeded.applyReset.ctx? 0 = some Context.unseeded := by decide

theorem witness_ResetMeetsInvariants : 1 ≤ 1 ∧ 1 ≤ 256 ∧ 256 ≤ 256 := by decide

/-- A JUMP under way on the second context of `twoSeeded`. -/
def jumpingState : State := { twoSeeded with phase := .jumping, scratch := { Scratch.zero with ctx := 1 } }

/-- A RANGE g1, 10, 20 under way. -/
def drawingState : State :=
  { twoSeeded with
    phase := .drawing
    scratch := { Scratch.zero with
      ctx := 1, minL := 10#64, range := 10#64, bucketSize := 0x1999999999999999#64, threshold := 0xFFFFFFFFFFFFFFFA#64 } }

theorem witness_idle_invariant : twoSeeded.Inv :=
  ⟨by decide, by decide, fun h => absurd rfl h, fun h => by cases h⟩

theorem witness_jumping_invariant : jumpingState.Inv :=
  ⟨by decide, by decide, fun _ => ⟨_, rfl, rfl⟩, fun h => by cases h⟩

theorem witness_drawing_invariant : drawingState.Inv :=
  ⟨by decide, by decide, fun _ => ⟨_, rfl, rfl⟩, fun _ => ⟨by decide, by decide, by decide, by decide⟩⟩

/-- In each phase a state with the invariant, and a step from it that answers a next state. -/
theorem witness_StepKeepsInvariant :
    (twoSeeded.Inv ∧ ∃ t, step twoSeeded = .next t) ∧ (jumpingState.Inv ∧ ∃ t, step jumpingState = .next t) ∧
      (drawingState.Inv ∧ ∃ t, step drawingState = .next t) :=
  ⟨⟨witness_idle_invariant, _, rfl⟩, ⟨witness_jumping_invariant, _, rfl⟩, ⟨witness_drawing_invariant, _, rfl⟩⟩

theorem witness_StepNeverStops : twoSeeded.Inv ∧ jumpingState.Inv ∧ drawingState.Inv :=
  ⟨witness_idle_invariant, witness_jumping_invariant, witness_drawing_invariant⟩

/-- Only two contexts of `twoSeeded` hold a generator, and neither is all-zero. -/
theorem twoSeeded_words (c : Nat) (g : Context) (h : twoSeeded.ctx? c = some g) (hv : g.valid = true) :
    (g.s0, g.s1) ≠ (0#64, 0#64) := by
  have hall : ∀ k : Fin 4, ∀ g', twoSeeded.ctx? k = some g' → g'.valid = true → (g'.s0, g'.s1) ≠ (0#64, 0#64) := by
    intro k
    fin_cases k <;> intro g' hg hv' <;> cases hg <;> first | decide | cases hv'
  exact hall ⟨c, State.lt_of_ctx?_eq_some _ h⟩ g h hv

theorem witness_GeneratorsStayNonzero :
    (twoSeeded.Inv ∧ twoSeeded.NonDegenerate ∧ ∃ t, step twoSeeded = .next t) ∧
      (jumpingState.Inv ∧ jumpingState.NonDegenerate ∧ ∃ t, step jumpingState = .next t) := by
  refine ⟨⟨witness_idle_invariant, ⟨twoSeeded_words, fun h => by cases h⟩, _, rfl⟩,
    ⟨witness_jumping_invariant, ⟨twoSeeded_words, ?_⟩, _, rfl⟩⟩
  intro _ g hg
  cases hg
  decide +kernel

theorem witness_StepRunsDecodedInstruction :
    twoNexts.phase = .idle ∧ twoNexts.commands = encode (.next 0) :: [encode (.next 0)] ∧
      decode (encode (.next 0)) = .ok (.next 0) := by decide

theorem witness_CommandsAreTakenInIdleOnly :
    (State.reset.phase = .idle ∧ State.reset.commands = []) ∧
      (jumpingState.phase ≠ .idle ∧ ∃ t, step jumpingState = .next t) := ⟨by decide, by decide, _, rfl⟩

theorem witness_OneResponseForEachCommand : (∃ t, step twoNexts = .next t) ∧ ∃ t, step jumpingState = .next t :=
  ⟨⟨_, rfl⟩, _, rfl⟩

theorem witness_OnlyNamedContextIsWritten :
    ((∃ t, exec (.copy 2 0) twoSeeded = .next t) ∧ writtenContext (.copy 2 0) ≠ some 0 ∧
        writtenContext (.mix 0#64) ≠ some 0) ∧
      (drawingState.phase ≠ .idle ∧ (∃ t, step drawingState = .next t) ∧ 0 ≠ drawingState.scratch.ctx) :=
  ⟨⟨⟨_, rfl⟩, by decide, by decide⟩, by decide, ⟨_, rfl⟩, by decide⟩

/-- A flag that stays, a COPY that sets one, and a step that takes a NEW that sets one. -/
theorem witness_ValidFlagOnlyRises :
    ((∃ t, step twoNexts = .next t) ∧ twoNexts.ctx? 0 = some ⟨1#64, 2#64, true⟩) ∧
      (∃ t, exec (.copy 2 0) twoSeeded = .next t ∧ twoSeeded.ctx? 2 = some Context.unseeded ∧
        t.ctx? 2 = some ⟨0x910A2DEC89025CC1#64, 1#64, true⟩) ∧
      ∃ t, step newThenNext = .next t ∧ newThenNext.ctx? 0 = some Context.unseeded ∧
        t.ctx? 0 = some ⟨0x910A2DEC89025CC1#64, 1#64, true⟩ :=
  ⟨⟨⟨_, rfl⟩, by decide⟩, ⟨_, rfl, by decide, by decide⟩, _, rfl, by decide, by decide⟩

/-- A command that samples nothing, a scripted draw, a free draw; then a pass of RANGE and a wait. -/
theorem witness_EntropyIsSampledByNewOnly :
    ((∃ t, runCommand (encode (.next 0)) twoSeeded = .next t) ∧
      (∃ t, runCommand (encode (.new 0 none)) { twoSeeded with entropy := [7#64] } = .next t) ∧
      ∃ t, runCommand (encode (.new 0 none)) twoSeeded = .next t) ∧
    (drawingState.phase ≠ .idle ∧ ∃ t, step drawingState = .next t) ∧
    (State.reset.commands = [] ∧ ∃ t, step State.reset = .next t) :=
  ⟨⟨⟨_, rfl⟩, ⟨_, rfl⟩, _, rfl⟩, ⟨by decide, _, rfl⟩, by decide, _, rfl⟩

/-- Two states that differ in the words of a context without a generator and in the hidden registers. -/
theorem witness_UnspecifiedValuesAreUnobservable :
    twoSeeded.Inv ∧
      twoSeeded.Agrees { twoSeeded with
        ctxs := twoSeeded.ctxs.set 3 ⟨5#64, 6#64, false⟩, scratch := { Scratch.zero with acc0 := 9#64 } } := by
  refine ⟨witness_idle_invariant, ⟨?_, rfl, rfl, rfl, rfl, rfl, fun h => (by cases h), fun h => (by cases h)⟩⟩
  exact .cons ⟨rfl, fun _ => rfl⟩ (.cons ⟨rfl, fun _ => rfl⟩ (.cons ⟨rfl, fun _ => rfl⟩
    (.cons ⟨rfl, fun h => (by cases h)⟩ .nil)))

/-- A RANGE with one pass and a NEW with a draw; two NEWs with a draw each; two NEXTs. -/
theorem witness_DifferentContextsDoNotInteract :
    ((∀ c ∈ namedContexts (.range 0 10#64 20#64), c ∉ namedContexts (.new 2 none)) ∧
        ¬ twoSeeded.Samples (.range 0 10#64 20#64) ∧
        (∃ t, twoSeeded.Completes (.range 0 10#64 20#64) t) ∧ ∃ t', twoSeeded.Completes (.new 2 none) t') ∧
      (2 ≠ 3 ∧ twoSeeded.Samples (.new 2 none) ∧ twoSeeded.Samples (.new 3 (some 0#64)) ∧
        ({ twoSeeded with entropy := [5#64, 6#64] } : State).entropy = 5#64 :: 6#64 :: []) ∧
      0 ≠ 1 ∧ twoSeeded.Holds 0 (0x910A2DEC89025CC1#64, 1#64) ∧ twoSeeded.Holds 1 (0xBDD732262FEB6E95#64, 0x2A#64) := by
  refine ⟨⟨by decide, id, ⟨_, 1, _, rfl, State.runsTo_succ rfl (State.runsTo_zero _), rfl, ?_⟩,
    _, State.completes_of_idle rfl rfl⟩, ⟨by decide, ⟨by decide, .inl rfl⟩, ⟨by decide, .inr rfl⟩, rfl⟩, by decide⟩
  intro m hm
  obtain rfl : m = 0 := by omega
  exact ⟨_, State.runsTo_zero _, by decide⟩

end Sys2Proof.Tests
end

/-! Proofs of the family 00_scope.md: the arithmetic of R12 to R19, the invariants right after reset, and one
transition from a state that meets the invariant. -/

namespace Sys2Proof.Machine

/-! ## The primitives as numbers (R12 to R14) -/

theorem add64_toNat (a b : Word) : (add64 a b).toNat = (a.toNat + b.toNat) % 2 ^ 64 := BitVec.toNat_add a b

theorem mul64_toNat (a b : Word) : (mul64 a b).toNat = (a.toNat * b.toNat) % 2 ^ 64 := BitVec.toNat_mul a b

/-- Where the subtrahend is the larger, the subtraction borrows 2^64 (R13). -/
theorem sub64_toNat_of_lt {a b : Word} (h : a < b) : (sub64 a b).toNat + b.toNat = a.toNat + 2 ^ 64 := by
  rw [sub64_eq]
  bv_omega

/-- Settles O1: each operation is the library's, whose value as a number is known; the examples are evaluated. -/
theorem arithmeticWraps : Obligations.ArithmeticWraps := by
  unfold Obligations.ArithmeticWraps
  refine ⟨add64_toNat, fun a b h => sub64_toNat (BitVec.le_def.mpr h),
    fun a b h => sub64_toNat_of_lt (BitVec.lt_def.mpr h), mul64_toNat, by decide, by decide, by decide, fun c => ?_⟩
  rw [mul64_eq, BitVec.zero_mul]

/-! ## The bits of shifts and rotations (R16, R17) -/

section
variable (x : Word) {n i : Nat} (h : ShiftAmount n)

theorem shl64_getLsbD (hi : i < 64) : (shl64 x n h).getLsbD i = (decide (n ≤ i) && x.getLsbD (i - n)) := by
  simp only [shl64_eq, BitVec.getLsbD_shiftLeft, hi, decide_true, Bool.true_and, ← Nat.not_lt, decide_not]

theorem shr64_getLsbD : (shr64 x n h).getLsbD i = x.getLsbD (i + n) := by
  rw [shr64_eq, BitVec.getLsbD_ushiftRight, Nat.add_comm]

/-- A bit below the amount comes from the top of the word, any other from `n` places below it. -/
theorem rotl64_getLsbD (hi : i < 64) : (rotl64 x n h).getLsbD i = x.getLsbD ((i + (64 - n)) % 64) := by
  have hn : n < 64 := h.2
  rw [rotl64_eq, BitVec.getLsbD_rotateLeft, Nat.mod_eq_of_lt hn]
  by_cases hin : i < n
  · have hidx : (i + (64 - n)) % 64 = 64 - n + i := by omega
    simp [hin, hidx]
  · have hidx : (i + (64 - n)) % 64 = i - n := by omega
    simp [hin, hi, hidx]

end

/-- Settles O2: bit by bit, from the library's shifts and its rotation. -/
theorem shiftAndRotationBits : Obligations.ShiftAndRotationBits := by
  unfold Obligations.ShiftAndRotationBits
  exact fun x n h i hi => ⟨shl64_getLsbD x h hi, shr64_getLsbD x h, rotl64_getLsbD x h hi⟩

/-! ## Division (R18, R19) -/

theorem udiv64_zero (a : Word) : udiv64 a 0#64 = none := if_pos rfl

theorem umod64_zero (a : Word) : umod64 a 0#64 = none := if_pos rfl

/-- Settles O3: for a divisor that is not 0 the values are the library's quotient and remainder. -/
theorem divisionByNonzeroOnly : Obligations.DivisionByNonzeroOnly := by
  unfold Obligations.DivisionByNonzeroOnly
  refine ⟨fun a b hb => ⟨a / b, a % b, udiv64_of_ne hb, umod64_of_ne hb, BitVec.toNat_udiv, ?_, ?_⟩,
    fun a => ⟨udiv64_zero a, umod64_zero a⟩⟩
  · rw [BitVec.toNat_umod]
    exact Nat.mod_lt _ (Nat.pos_of_ne_zero fun h => hb (BitVec.eq_of_toNat_eq h))
  · rw [BitVec.toNat_udiv, BitVec.toNat_umod, Nat.div_add_mod]

/-! ## The invariants after reset (R6, R34, R43) -/

theorem State.resetOf_nctx (n : Nat) : (State.resetOf n).nctx = n := List.length_replicate

/-- Right after reset every context is unseeded (R43). -/
theorem State.eq_unseeded_of_resetOf {n c : Nat} {g : Context} (h : (State.resetOf n).ctx? c = some g) :
    g = Context.unseeded :=
  List.eq_of_mem_replicate (List.mem_of_getElem? h)

theorem State.resetOf_inv {n : Nat} (h1 : 1 ≤ n) (h2 : n ≤ 256) : (State.resetOf n).Inv where
  nctx_pos := (State.resetOf_nctx n).symm ▸ h1
  nctx_le := (State.resetOf_nctx n).symm ▸ h2
  busy hb := absurd rfl hb
  drawing hd := nomatch hd

/-- After reset no context holds a generator and no JUMP runs, so there is nothing that could be all-zero. -/
theorem State.resetOf_nonDegenerate (n : Nat) : (State.resetOf n).NonDegenerate where
  words c g hg hv := by
    rw [State.eq_unseeded_of_resetOf hg] at hv
    cases hv
  jumping hj := nomatch hj

/-- Settles O49: the reset state is idle and all its contexts are unseeded; the machine's own is the one with
`Config.nctx` contexts. -/
theorem resetMeetsInvariants : Obligations.ResetMeetsInvariants := by
  unfold Obligations.ResetMeetsInvariants
  exact ⟨fun n h1 h2 => ⟨State.resetOf_inv h1 h2, State.resetOf_nonDegenerate n⟩, rfl,
    State.resetOf_inv (by decide) (by decide), State.resetOf_nonDegenerate Config.nctx⟩

/-! ## What keeps the number of contexts -/

section
variable (s : State)

@[simp] theorem State.setCtx_nctx (c : Nat) (g : Context) : (s.setCtx c g).nctx = s.nctx := List.length_set

@[simp] theorem State.setWords_nctx (c : Nat) (g : Context) (w0 w1 : Word) : (s.setWords c g w0 w1).nctx = s.nctx :=
  s.setCtx_nctx c _

@[simp] theorem State.respond_nctx (r : Response) : (s.respond r).nctx = s.nctx := rfl

@[simp] theorem State.releaseScratch_nctx : s.releaseScratch.nctx = s.nctx := rfl

@[simp] theorem effectiveSeed_nctx (seed : Option Word) : (effectiveSeed seed s).2.nctx = s.nctx :=
  congrArg List.length (effectiveSeed_frame seed s).1

end

/-! ## The registers of a running RANGE (R152 to R154) -/

/-- The three values of a nonempty interval, held in the registers, are those of a proper draw. -/
theorem drawsProperly_of_rangeParams {lo hi : Word} {p : RangeParams} (h : lo < hi) (hp : rangeParams lo hi = some p)
    {sc : Scratch} (hmin : sc.minL = lo) (hrange : sc.range = p.range) (hbucket : sc.bucketSize = p.bucketSize)
    (hthreshold : sc.threshold = p.threshold) : sc.DrawsProperly := by
  obtain rfl := Option.some.inj ((rangeParams_of_lt h).symm.trans hp)
  have hlt : lo.toNat < hi.toNat := BitVec.lt_def.mp h
  have hsub : (sub64 hi lo).toNat = hi.toNat - lo.toNat := sub64_toNat (BitVec.le_of_lt h)
  have hmax : randMax.toNat = 2 ^ 64 - 1 := rfl
  have hle : randMax % sub64 hi lo ≤ randMax := by
    rw [BitVec.le_def, BitVec.toNat_umod]
    exact Nat.mod_le _ _
  constructor
  · rw [hrange, hsub]
    omega
  · rw [hbucket, hrange, BitVec.toNat_udiv, hmax]
  · rw [hthreshold, hrange, sub64_toNat hle, BitVec.toNat_umod, hmax]
  · rw [hmin, hrange, hsub]
    have := hi.isLt
    omega

/-- The bucket size of a proper draw is a divisor (R19): the range is below 2^64, so it goes into 2^64 - 1. -/
theorem Scratch.DrawsProperly.bucketSize_ne_zero {sc : Scratch} (h : sc.DrawsProperly) : sc.bucketSize ≠ 0#64 := by
  have hpos : 0 < sc.bucketSize.toNat := by
    rw [h.bucket]
    exact Nat.div_pos (Nat.le_sub_one_of_lt sc.range.isLt) h.range_pos
  intro hz
  simp [hz] at hpos

/-! ## The invariant through one transition (R36, R142, R150) -/

section
variable {s : State}

/-- A state in IDLE asks for nothing but the number of contexts. -/
theorem State.Inv.of_idle (h : s.Inv) {t : State} (hn : t.nctx = s.nctx) (hp : t.phase = .idle) : t.Inv where
  nctx_pos := hn ▸ h.nctx_pos
  nctx_le := hn ▸ h.nctx_le
  busy hb := absurd hp hb
  drawing hd := nomatch hp.symm.trans hd

theorem State.Inv.respond (h : s.Inv) (r : Response) : (s.respond r).Inv := h.of_idle rfl rfl

/-- Taking a JUMP or a RANGE on a generator: the loop has its generator, and a RANGE its registers. -/
theorem State.Inv.enterLoop (h : s.Inv) {g : Context} {sc : Scratch} (hg : s.ctx? sc.ctx = some g) (hv : g.valid = true)
    {ph : Phase} (hd : ph = .drawing → sc.DrawsProperly) : ({ s with phase := ph, scratch := sc } : State).Inv where
  nctx_pos := h.nctx_pos
  nctx_le := h.nctx_le
  busy _ := ⟨g, hg, hv⟩
  drawing := hd

/-- A pass that goes on writes new words to the running context, which keeps its flag, and keeps its index. -/
theorem State.Inv.continueLoop (h : s.Inv) {g : Context} (hg : s.ctx? s.scratch.ctx = some g) (hv : g.valid = true)
    (w0 w1 : Word) {sc : Scratch} (hsc : sc.ctx = s.scratch.ctx) (hd : s.phase = .drawing → sc.DrawsProperly) :
    ({ s.setWords s.scratch.ctx g w0 w1 with scratch := sc } : State).Inv where
  nctx_pos := (s.setWords_nctx s.scratch.ctx g w0 w1).symm ▸ h.nctx_pos
  nctx_le := (s.setWords_nctx s.scratch.ctx g w0 w1).symm ▸ h.nctx_le
  busy _ := ⟨{ g with s0 := w0, s1 := w1 }, hsc.symm ▸ s.ctx?_setCtx_self _ (s.lt_of_ctx?_eq_some hg), hv⟩
  drawing := hd

/-- An instruction that runs without an error ends in IDLE, or enters a loop whose needs it has tested. -/
theorem State.Inv.ran (h : s.Inv) {i : Instr} {t : State} (hr : Ran i s t) : t.Inv := by
  cases i with
  | new c seed =>
    obtain ⟨-, rfl⟩ := hr
    exact h.of_idle (by simp) rfl
  | copy d src =>
    obtain ⟨-, g, -, -, rfl⟩ := hr
    exact h.of_idle (by simp) rfl
  | jump c =>
    obtain ⟨g, hg, hv, rfl⟩ := hr
    exact h.enterLoop hg hv (nomatch ·)
  | next c =>
    obtain ⟨g, -, -, rfl⟩ := hr
    exact h.of_idle (by simp) rfl
  | range c lo hi =>
    obtain ⟨g, hg, hv, ⟨-, rfl⟩ | ⟨-, rfl⟩ | ⟨hlt, p, hp, rfl⟩⟩ := hr
    · exact h.respond _
    · exact h.respond _
    · exact h.enterLoop hg hv fun _ => drawsProperly_of_rangeParams hlt hp rfl rfl rfl rfl
  | mix n =>
    obtain rfl := hr
    exact h.respond _
  | rdmax =>
    obtain rfl := hr
    exact h.respond _

theorem State.Inv.exists_exec (h : s.Inv) (i : Instr) : ∃ t, exec i s = .next t ∧ t.Inv := by
  obtain ⟨-, he⟩ | ⟨-, he⟩ | ⟨t, hr, he⟩ := exec_cases i s
  · exact ⟨_, he, h.respond _⟩
  · exact ⟨_, he, h.respond _⟩
  · exact ⟨t, he, h.ran hr⟩

theorem State.Inv.exists_runCommand (h : s.Inv) (c : Command) : ∃ t, runCommand c s = .next t ∧ t.Inv := by
  obtain ⟨e, -, hc⟩ | ⟨i, -, hc⟩ := runCommand_cases c s
  · exact ⟨_, hc, h.respond _⟩
  · exact hc ▸ h.exists_exec i

theorem State.Inv.exists_jumpPass (h : s.Inv) (hp : s.phase = .jumping) : ∃ t, jumpPass s = .next t ∧ t.Inv := by
  obtain ⟨g, hg, hv⟩ := h.busy (hp ▸ nofun)
  obtain ⟨hnone, -⟩ | ⟨g', acc, hg', -, ⟨-, he⟩ | ⟨-, he⟩⟩ := jumpPass_cases s
  · exact nomatch hg.symm.trans hnone
  · exact ⟨_, he, h.of_idle (by simp) rfl⟩
  · obtain rfl := Option.some.inj (hg.symm.trans hg')
    exact ⟨_, he, h.continueLoop hg hv _ _ rfl fun hd => nomatch hp.symm.trans hd⟩

theorem State.Inv.exists_drawPass (h : s.Inv) (hp : s.phase = .drawing) : ∃ t, drawPass s = .next t ∧ t.Inv := by
  obtain ⟨g, hg, hv⟩ := h.busy (hp ▸ nofun)
  have hd := h.drawing hp
  obtain ⟨hnone, -⟩ | ⟨g', n, hg', -, ⟨-, he⟩ | ⟨-, hz, -⟩ | ⟨d, -, -, he⟩⟩ := drawPass_cases s
  · exact nomatch hg.symm.trans hnone
  · obtain rfl := Option.some.inj (hg.symm.trans hg')
    exact ⟨_, he, h.continueLoop hg hv _ _ rfl fun _ => ⟨hd.range_pos, hd.bucket, hd.threshold, hd.fits⟩⟩
  · exact absurd hz hd.bucketSize_ne_zero
  · exact ⟨_, he, h.of_idle (by simp) rfl⟩

/-- From a state that meets the invariant a transition answers a next state, and that state meets it again. -/
theorem State.Inv.exists_step (h : s.Inv) : ∃ t, step s = .next t ∧ t.Inv := by
  obtain ⟨-, -, he⟩ | ⟨c, rest, hp, -, he⟩ | ⟨hp, he⟩ | ⟨hp, he⟩ := step_cases s
  · exact ⟨s, he, h⟩
  · have htaken : ({ s with commands := rest } : State).Inv := h.of_idle rfl hp
    exact he ▸ htaken.exists_runCommand c
  · exact he ▸ h.exists_jumpPass hp
  · exact he ▸ h.exists_drawPass hp

end

/-- Settles O50: the next state is the one that `State.Inv.exists_step` answers. -/
theorem stepKeepsInvariant : Obligations.StepKeepsInvariant := by
  unfold Obligations.StepKeepsInvariant
  intro s t h ht
  obtain ⟨t', ht', hinv⟩ := h.exists_step
  cases ht.symm.trans ht'
  exact hinv

/-- Settles O51: the invariant gives every pass its context and its divisor, so there is the next state of
`State.Inv.exists_step`. -/
theorem stepNeverStops : Obligations.StepNeverStops := by
  unfold Obligations.StepNeverStops
  intro s h
  obtain ⟨t, ht, -⟩ := h.exists_step
  exact ⟨t, ht⟩

end Sys2Proof.Machine


/-! Proofs of the family 10_state.md: reset, the context file through one transition, the all-zero state, what cannot be
observed, and commands on different contexts. -/

namespace Sys2Proof.Machine

/-! ## The all-zero state is left by nothing but itself: STEP (R34, R131) -/

/-- A rotation only moves bits, so it makes no word zero (R17). -/
theorem rotl64_eq_zero {x : Word} {n : Nat} (h : ShiftAmount n) (hx : rotl64 x n h = 0#64) : x = 0#64 := by
  have hn : n < 64 := h.2
  refine BitVec.eq_of_getLsbD_eq fun i hi => ?_
  have hidx : ((i + n) % 64 + (64 - n)) % 64 = i := by omega
  have hbit := rotl64_getLsbD x h (Nat.mod_lt (i + n) (by decide : 0 < 64))
  rw [hx, hidx] at hbit
  simpa using hbit.symm

/-- Only the all-zero state steps to the all-zero state: `s1 ^ s0` must be zero, and then `s0` (R131, R135). -/
theorem stepMap_ne_zero {w : Word × Word} (hw : w ≠ (0#64, 0#64)) : stepMap w ≠ (0#64, 0#64) := by
  intro hz
  obtain ⟨h0, h1⟩ := Prod.ext_iff.mp hz
  have hx : w.2 ^^^ w.1 = 0#64 := rotl64_eq_zero (n := 36) (by decide) h1
  have hs0 : w.1 = 0#64 := by
    refine rotl64_eq_zero (n := 55) (by decide) ?_
    simpa [stepMap, stepWords, xor64, shl64, hx] using h0
  exact hw (Prod.ext hs0 ((BitVec.xor_eq_zero_iff.mp hx).trans hs0))

/-! ## The loop of a jump over any linear representation of the state (R142) -/

/-- The loop of R142 with the step, the exclusive or and the choice of the iterations as arguments: the exclusive or of the
states after `k` steps, over the chosen `k`. -/
def selectSteps {σ : Type} (step : σ → σ) (add : σ → σ → σ) (chosen : Nat → Bool) : (n k : Nat) → (acc w : σ) → σ
  | 0, _, acc, _ => acc
  | n + 1, k, acc, w => selectSteps step add chosen n (k + 1) (if chosen k then add acc w else acc) (step w)

/-- A relation that steps and exclusive ors keep is kept by the loop. -/
theorem selectSteps_rel {σ τ : Type} {step : σ → σ} {add : σ → σ → σ} {step' : τ → τ} {add' : τ → τ → τ}
    {R : σ → τ → Prop} (hstep : ∀ {x y}, R x y → R (step x) (step' y))
    (hadd : ∀ {x y x' y'}, R x y → R x' y' → R (add x x') (add' y y')) (chosen : Nat → Bool) (n : Nat) :
    ∀ {k acc acc' w w'}, R acc acc' → R w w' →
      R (selectSteps step add chosen n k acc w) (selectSteps step' add' chosen n k acc' w') := by
  induction n with
  | zero => exact fun hacc _ => hacc
  | succ n ih =>
    intro k acc acc' w w' hacc hw
    refine ih ?_ (hstep hw)
    cases chosen k with
    | true => exact hadd hacc hw
    | false => exact hacc

/-- The exclusive or of two pairs of state words. -/
def xorPair (a b : Word × Word) : Word × Word := (a.1 ^^^ b.1, a.2 ^^^ b.2)

theorem jumpLoop_eq_selectSteps (n : Nat) :
    ∀ (k : Nat) (acc w : Word × Word), jumpLoop n k acc w = selectSteps stepMap xorPair jumpBit n k acc w := by
  induction n with
  | zero => exact fun _ _ _ => rfl
  | succ n ih => exact fun k acc w => ih (k + 1) (accumulate k acc w) (stepMap w)

/-! ## The state as linear forms in the bits it started from

Bit `i` of a state word is an exclusive or of some of the 128 bits of the words that the loop started from. Which ones is
kept in row `i` (128 bits) of a matrix with 64 rows, laid out in one bit vector, so that rotating or shifting the word
rotates or shifts the matrix by whole rows. An identity between loops is then one evaluation, for all words at once. -/

/-- 64 rows of 128 coefficients. -/
abbrev Forms := BitVec 8192

/-- The coefficients of row `i`. -/
def Forms.row (X : Forms) (i : Nat) : Nat → Bool := fun j => X.getLsbD (128 * i + j)

/-- The value of a linear form with these coefficients: the exclusive or of the inputs it selects, among the first `n`. -/
def formValue (input coeff : Nat → Bool) : (n : Nat) → Bool
  | 0 => false
  | n + 1 => formValue input coeff n ^^ (input n && coeff n)

section
variable (input : Nat → Bool) {coeff coeff' : Nat → Bool}

theorem formValue_congr {n : Nat} (h : ∀ j < n, coeff j = coeff' j) :
    formValue input coeff n = formValue input coeff' n := by
  induction n with
  | zero => rfl
  | succ n ih => simp [formValue, ih fun j hj => h j (Nat.lt_succ_of_lt hj), h n n.lt_succ_self]

theorem formValue_xor (n : Nat) :
    formValue input (fun j => coeff j ^^ coeff' j) n = (formValue input coeff n ^^ formValue input coeff' n) := by
  induction n with
  | zero => rfl
  | succ n ih =>
    simp only [formValue, ih, Bool.and_xor_distrib_left, Bool.xor_assoc, Bool.xor_left_comm]

theorem formValue_zero (n : Nat) : formValue input (fun _ => false) n = false := by
  induction n with
  | zero => rfl
  | succ n ih => simp [formValue, ih]

theorem formValue_single (k n : Nat) : formValue input (fun j => decide (j = k)) n = (decide (k < n) && input k) := by
  induction n with
  | zero => simp [formValue]
  | succ n ih =>
    rw [formValue, ih]
    obtain hlt | rfl | hgt := Nat.lt_trichotomy n k
    · simp [show ¬ k < n by omega, show ¬ k < n + 1 by omega, show n ≠ k by omega]
    · simp
    · simp [hgt, show k < n + 1 by omega, show n ≠ k by omega]

end

/-- The rows of `X` are the bits of `a` as linear forms in the input. -/
def Forms.Tracks (input : Nat → Bool) (X : Forms) (a : Word) : Prop :=
  ∀ i < 64, a.getLsbD i = formValue input (X.row i) 128

section
variable {input : Nat → Bool} {X Y : Forms} {a b : Word}

theorem Forms.Tracks.unique (ha : X.Tracks input a) (hb : X.Tracks input b) : a = b :=
  BitVec.eq_of_getLsbD_eq fun i hi => (ha i hi).trans (hb i hi).symm

theorem Forms.tracks_zero : Forms.Tracks input 0 0#64 := by
  intro i _
  have hrow : Forms.row 0 i = fun _ => false := by
    funext j
    simp [Forms.row]
  rw [hrow, formValue_zero, BitVec.getLsbD_zero]

theorem Forms.Tracks.xor (ha : X.Tracks input a) (hb : Y.Tracks input b) : (X ^^^ Y).Tracks input (a ^^^ b) := by
  intro i hi
  have hrow : (X ^^^ Y).row i = fun j => X.row i j ^^ Y.row i j := funext fun _ => BitVec.getLsbD_xor
  rw [hrow, formValue_xor, BitVec.getLsbD_xor, ha i hi, hb i hi]

/-- Rotating the word by `n` bits rotates the matrix by `n` rows. -/
theorem Forms.Tracks.rotl (ha : X.Tracks input a) {n : Nat} (h : ShiftAmount n) :
    Forms.Tracks input (X.rotateLeft (128 * n)) (rotl64 a n h) := by
  intro i hi
  have hn : n < 64 := h.2
  rw [rotl64_getLsbD a h hi, ha _ (Nat.mod_lt _ (by decide))]
  refine formValue_congr input fun j hj => ?_
  rw [Forms.row, Forms.row, BitVec.getLsbD_rotateLeft, Nat.mod_eq_of_lt (by omega : 128 * n < 8192)]
  by_cases hin : i < n
  · have hidx : 128 * ((i + (64 - n)) % 64) + j = 8192 - 128 * n + (128 * i + j) := by omega
    rw [decide_eq_true (by omega : 128 * i + j < 128 * n), cond_true, hidx]
  · have hidx : 128 * ((i + (64 - n)) % 64) + j = 128 * i + j - 128 * n := by omega
    rw [decide_eq_false (by omega : ¬ 128 * i + j < 128 * n), cond_false,
      decide_eq_true (by omega : 128 * i + j < 8192), Bool.true_and, hidx]

/-- Shifting the word by `n` bits shifts the matrix by `n` rows. -/
theorem Forms.Tracks.shl (ha : X.Tracks input a) {n : Nat} (h : ShiftAmount n) :
    Forms.Tracks input (X <<< (128 * n)) (shl64 a n h) := by
  intro i hi
  rw [shl64_getLsbD a h hi]
  by_cases hin : n ≤ i
  · rw [decide_eq_true hin, Bool.true_and, ha _ (by omega)]
    refine formValue_congr input fun j hj => ?_
    have hidx : 128 * i + j - 128 * n = 128 * (i - n) + j := by omega
    rw [Forms.row, Forms.row, BitVec.getLsbD_shiftLeft, hidx, decide_eq_true (by omega : 128 * i + j < 8192),
      decide_eq_false (by omega : ¬ 128 * i + j < 128 * n), Bool.not_false, Bool.true_and, Bool.true_and]
  · rw [decide_eq_false hin, Bool.false_and, ← formValue_zero input 128]
    refine formValue_congr input fun j hj => ?_
    simp [Forms.row, show 128 * i + j < 128 * n by omega]

end

/-- The step map on the matrices of both state words (R131). -/
def formsStep (W : Forms × Forms) : Forms × Forms :=
  let x := W.2 ^^^ W.1
  (W.1.rotateLeft (128 * 55) ^^^ x ^^^ (x <<< (128 * 14)), x.rotateLeft (128 * 36))

/-- The exclusive or of the matrices of both state words. -/
def formsXor (V W : Forms × Forms) : Forms × Forms := (V.1 ^^^ W.1, V.2 ^^^ W.2)

/-- Both matrices track their state words. -/
def TracksPair (input : Nat → Bool) (W : Forms × Forms) (w : Word × Word) : Prop :=
  W.1.Tracks input w.1 ∧ W.2.Tracks input w.2

theorem TracksPair.step {input : Nat → Bool} {W : Forms × Forms} {w : Word × Word} (h : TracksPair input W w) :
    TracksPair input (formsStep W) (stepMap w) := by
  have hx := h.2.xor h.1
  exact ⟨((h.1.rotl (by decide)).xor hx).xor (hx.shl (by decide)), hx.rotl (by decide)⟩

theorem TracksPair.xor {input : Nat → Bool} {V W : Forms × Forms} {v w : Word × Word} (hv : TracksPair input V v)
    (hw : TracksPair input W w) : TracksPair input (formsXor V W) (xorPair v w) :=
  ⟨hv.1.xor hw.1, hv.2.xor hw.2⟩

theorem tracksPair_zero (input : Nat → Bool) : TracksPair input (0, 0) (0#64, 0#64) :=
  ⟨Forms.tracks_zero, Forms.tracks_zero⟩

/-- The matrices follow the words through the loop, from the words `w` that it starts with. -/
theorem TracksPair.loop {input : Nat → Bool} {W : Forms × Forms} {w : Word × Word} (h : TracksPair input W w)
    (chosen : Nat → Bool) (n : Nat) :
    TracksPair input (selectSteps formsStep formsXor chosen n 0 (0, 0) W)
      (selectSteps stepMap xorPair chosen n 0 (0#64, 0#64) w) :=
  selectSteps_rel TracksPair.step TracksPair.xor chosen n (tracksPair_zero input) h

/-- The matrix whose row `i`, of the first `n`, has the one coefficient number `start + i`. -/
def unitForms (start : Nat) : (n : Nat) → Forms
  | 0 => 0
  | n + 1 => unitForms start n ^^^ BitVec.twoPow 8192 (128 * n + (start + n))

theorem unitForms_row {start : Nat} (hs : start ≤ 64) (n : Nat) (hn : n ≤ 64) {i j : Nat} (hi : i < 64) (hj : j < 128) :
    (unitForms start n).row i j = decide (i < n ∧ j = start + i) := by
  induction n with
  | zero => simp [unitForms, Forms.row]
  | succ n ih =>
    have hrow := ih (Nat.le_of_succ_le hn)
    rw [Forms.row] at hrow ⊢
    rw [unitForms, BitVec.getLsbD_xor, hrow, BitVec.getLsbD_twoPow]
    rw [decide_eq_true (by omega : 128 * n + (start + n) < 8192), Bool.true_and]
    obtain hlt | rfl | hgt := Nat.lt_trichotomy i n
    · simp [hlt, show i < n + 1 by omega, show 128 * n + (start + n) ≠ 128 * i + j by omega]
    · simp [eq_comm]
    · simp [show ¬ i < n by omega, show ¬ i < n + 1 by omega, show 128 * n + (start + n) ≠ 128 * i + j by omega]

/-- The word of the 64 input bits from `start` on is tracked by the unit rows. -/
theorem unitForms_tracks {input : Nat → Bool} {start : Nat} (hs : start ≤ 64) {a : Word}
    (ha : ∀ i < 64, a.getLsbD i = input (start + i)) : (unitForms start 64).Tracks input a := by
  intro i hi
  have hrow : formValue input ((unitForms start 64).row i) 128 = formValue input (fun j => decide (j = start + i)) 128 :=
    formValue_congr input fun j hj => by simp [unitForms_row hs 64 le_rfl hi hj, hi]
  rw [hrow, formValue_single, decide_eq_true (by omega), Bool.true_and, ha i hi]

/-- The 128 bits of a pair of state words, those of the first word first. -/
def inputBits (w : Word × Word) (j : Nat) : Bool := if j < 64 then w.1.getLsbD j else w.2.getLsbD (j - 64)

/-- The matrices that the loop starts with: every bit is itself. -/
def startForms : Forms × Forms := (unitForms 0 64, unitForms 64 64)

theorem startForms_tracks (w : Word × Word) : TracksPair (inputBits w) startForms w :=
  ⟨unitForms_tracks (Nat.zero_le 64) fun i hi => by simp [inputBits, hi],
    unitForms_tracks le_rfl fun i _ => by simp [inputBits]⟩

/-! ## A jump can be undone, so it makes no state all-zero (R34, R140) -/

/-- The iterations of a loop that undoes the jump: as polynomials in the step map, the inverse of the jump's modulo the
characteristic polynomial of the step map. -/
def unjumpBit (k : Nat) : Bool := (0x3EBCCDD65922984AE91A0013BDD8604E#128).getLsbD k

/-- The words before a jump, from the words it leaves. -/
def unjumpWords (w : Word × Word) : Word × Word := selectSteps stepMap xorPair unjumpBit 128 0 (0#64, 0#64) w

/-- On the matrices the loop of `unjumpBit` undoes that of `jumpBit`. -/
theorem selectSteps_unjumpBit_jumpBit :
    selectSteps formsStep formsXor unjumpBit 128 0 (0, 0)
      (selectSteps formsStep formsXor jumpBit 128 0 (0, 0) startForms) = startForms := by
  decide +kernel

theorem unjumpWords_jumpWords (w : Word × Word) : unjumpWords (jumpWords w) = w := by
  have hstart := startForms_tracks w
  have hend := (hstart.loop jumpBit 128).loop unjumpBit 128
  rw [selectSteps_unjumpBit_jumpBit, ← jumpLoop_eq_selectSteps] at hend
  exact Prod.ext (hend.1.unique hstart.1) (hend.2.unique hstart.2)

theorem jumpWords_zero : jumpWords (0#64, 0#64) = (0#64, 0#64) := by decide +kernel

/-- Only the all-zero state jumps to the all-zero state. -/
theorem jumpWords_ne_zero {w : Word × Word} (hw : w ≠ (0#64, 0#64)) : jumpWords w ≠ (0#64, 0#64) := by
  intro hz
  exact hw ((Function.LeftInverse.injective unjumpWords_jumpWords) (hz.trans jumpWords_zero.symm))

end Sys2Proof.Machine

namespace Sys2Proof.Machine

/-! ## Reset (R43, R44, R200) -/

/-- Settles O47: every context of `State.resetOf n` is unseeded. -/
theorem resetLeaves : Obligations.ResetLeaves := by
  unfold Obligations.ResetLeaves
  refine ⟨fun n => ⟨State.resetOf_nctx n, rfl, rfl, fun c hc => ?_⟩, rfl, rfl, fun c g hg => ?_⟩
  · exact ⟨Context.unseeded, List.getElem?_replicate_of_lt hc, rfl⟩
  · rw [State.eq_unseeded_of_resetOf hg]
    rfl

/-- Settles O48: the contexts after the reset event are those of `State.resetOf`. -/
theorem resetEventClears : Obligations.ResetEventClears := by
  unfold Obligations.ResetEventClears
  refine fun s => ⟨State.resetOf_nctx s.nctx, rfl, rfl, fun c g hg => ?_⟩
  have hreset : (State.resetOf s.nctx).ctx? c = some g := hg
  rw [State.eq_unseeded_of_resetOf hreset]
  rfl

/-! ## One context set in the file -/

section
variable {s t : State} {c d : Nat} {g g' : Context}

/-- A context of the new file is the one that was set, or an old one. -/
theorem State.ctx?_of_set (ht : t.ctxs = s.ctxs.set c g) (hd : t.ctx? d = some g') :
    (d = c ∧ g' = g) ∨ s.ctx? d = some g' := by
  rw [State.ctx?, ht, List.getElem?_set] at hd
  split at hd
  · split at hd
    · exact .inl ⟨(‹c = d›).symm, (Option.some.inj hd).symm⟩
    · cases hd
  · exact .inr hd

/-- A context that was set, and exists, is read back. -/
theorem State.ctx?_self_of_set (ht : t.ctxs = s.ctxs.set c g) (hc : s.ctx? c = some g') : t.ctx? c = some g := by
  rw [State.ctx?, ht]
  exact List.getElem?_set_self (s.lt_of_ctx?_eq_some hc)

/-- Every other context, and the number of contexts, stay. -/
theorem State.frame_of_set (ht : t.ctxs = s.ctxs.set c g) : t.nctx = s.nctx ∧ ∀ d, d ≠ c → t.ctx? d = s.ctx? d :=
  ⟨by simp [State.nctx, ht], fun d hd => by rw [State.ctx?, State.ctx?, ht, List.getElem?_set_ne hd.symm]⟩

/-- A flag is kept where the context that is set holds a generator, if it held one before. -/
theorem State.valid_of_set (ht : t.ctxs = s.ctxs.set c g)
    (hg : ∀ old, s.ctx? c = some old → old.valid = true → g.valid = true) (hd : s.ctx? d = some g')
    (hv : g'.valid = true) : ∃ new, t.ctx? d = some new ∧ new.valid = true := by
  by_cases hdc : d = c
  · subst hdc
    exact ⟨g, State.ctx?_self_of_set ht hd, hg g' hd hv⟩
  · exact ⟨g', ((State.frame_of_set ht).2 d hdc).trans hd, hv⟩

end

/-! ## What an instruction does to the context file (R31, R33) -/

/-- Instruction `i`, executed in `s`, writes `g` to context `c`: a construction, a copy, or the step of a NEXT. -/
inductive Writes (s : State) : (i : Instr) → (c : Nat) → (g : Context) → Prop where
  | new (c : Nat) (seed : Option Word) (n : Word) : Writes s (.new c seed) c (seeded n)
  | copy {d src : Nat} {g : Context} (hg : s.ctx? src = some g) (hv : g.valid = true) :
      Writes s (.copy d src) d { s0 := g.s0, s1 := g.s1, valid := true }
  | next {c : Nat} {g : Context} (hg : s.ctx? c = some g) (hv : g.valid = true) :
      Writes s (.next c) c { g with s0 := (stepMap (g.s0, g.s1)).1, s1 := (stepMap (g.s0, g.s1)).2 }

section
variable {s t : State} {i : Instr} {c : Nat} {g : Context}

theorem Writes.writtenContext_eq (h : Writes s i c g) : writtenContext i = some c := by
  cases h <;> rfl

/-- What is written is a generator. -/
theorem Writes.valid (h : Writes s i c g) : g.valid = true := by
  cases h with
  | new => rfl
  | copy => rfl
  | next _ hv => exact hv

/-- What is written where no generator was is not the step of a NEXT. -/
theorem Writes.new_or_copy (h : Writes s i c g) {old : Context} (hc : s.ctx? c = some old) (hv : old.valid = false) :
    (∃ seed, i = .new c seed) ∨ (∃ src, i = .copy c src) := by
  cases h with
  | new _ seed _ => exact .inl ⟨seed, rfl⟩
  | copy => exact .inr ⟨_, rfl⟩
  | next hg hvalid =>
    obtain rfl := Option.some.inj (hc.symm.trans hg)
    exact nomatch hv.symm.trans hvalid

/-- An instruction that runs leaves the context file, or sets one context in it. -/
theorem Ran.ctxs (h : Ran i s t) : t.ctxs = s.ctxs ∨ ∃ c g, Writes s i c g ∧ t.ctxs = s.ctxs.set c g := by
  cases i with
  | new c seed =>
    obtain ⟨-, rfl⟩ := h
    exact .inr ⟨c, _, .new c seed (effectiveSeed seed s).1, by simp [(effectiveSeed_frame seed s).1]⟩
  | copy d src =>
    obtain ⟨-, g, hg, hv, rfl⟩ := h
    exact .inr ⟨d, _, .copy hg hv, rfl⟩
  | jump c =>
    obtain ⟨g, -, -, rfl⟩ := h
    exact .inl rfl
  | next c =>
    obtain ⟨g, hg, hv, rfl⟩ := h
    exact .inr ⟨c, _, .next hg hv, rfl⟩
  | range c lo hi =>
    obtain ⟨g, -, -, ⟨-, rfl⟩ | ⟨-, rfl⟩ | ⟨-, p, -, rfl⟩⟩ := h <;> exact .inl rfl
  | mix n =>
    obtain rfl := h
    exact .inl rfl
  | rdmax =>
    obtain rfl := h
    exact .inl rfl

/-- An instruction leaves the context file, or sets one context in it. -/
theorem exec_ctxs (h : exec i s = .next t) :
    t.ctxs = s.ctxs ∨ ∃ c g, Writes s i c g ∧ t.ctxs = s.ctxs.set c g := by
  obtain ⟨-, he⟩ | ⟨-, he⟩ | ⟨t', hr, he⟩ := exec_cases i s <;> cases he.symm.trans h
  · exact .inl rfl
  · exact .inl rfl
  · exact hr.ctxs

theorem exec_keeps_valid (h : exec i s = .next t) (hc : s.ctx? c = some g) (hv : g.valid = true) :
    ∃ g', t.ctx? c = some g' ∧ g'.valid = true := by
  obtain hsame | ⟨c', g', hw, hset⟩ := exec_ctxs h
  · exact ⟨g, by rw [State.ctx?, hsame]; exact hc, hv⟩
  · exact State.valid_of_set hset (fun _ _ _ => hw.valid) hc hv

/-- Only a NEW or a COPY onto a context sets its flag (R32). -/
theorem new_or_copy_of_exec_raises (h : exec i s = .next t) {g' : Context} (hc : s.ctx? c = some g)
    (hc' : t.ctx? c = some g') (hv : g.valid = false) (hv' : g'.valid = true) :
    (∃ seed, i = .new c seed) ∨ (∃ src, i = .copy c src) := by
  have hold : s.ctx? c ≠ some g' := fun e => by
    obtain rfl := Option.some.inj (hc.symm.trans e)
    exact nomatch hv.symm.trans hv'
  obtain hsame | ⟨d, w, hw, hset⟩ := exec_ctxs h
  · exact absurd (by rw [← hc', State.ctx?, State.ctx?, hsame]) hold
  · obtain ⟨rfl, -⟩ | he := State.ctx?_of_set hset hc'
    · exact hw.new_or_copy hc hv
    · exact absurd he hold

end

/-! ## What a pass does to the context file (R144, R158) -/

section
variable {s t : State}

/-- The last pass of a JUMP accumulates what the loop was to end with (R142). -/
theorem State.jumpEnd_of_last {g : Context} (hi : s.scratch.iter = 127#7) :
    s.jumpEnd g = accumulate s.scratch.iter.toNat (s.scratch.acc0, s.scratch.acc1) (g.s0, g.s1) := by
  rw [State.jumpEnd, hi]
  rfl

/-- A pass sets the words of the running context, which keeps its flag, to their step, or to what the JUMP ends with; and it
takes no command. -/
theorem pass_ctxs (hb : s.phase ≠ .idle) (h : step s = .next t) :
    t.commands = s.commands ∧ ∃ (g : Context) (w : Word × Word), s.ctx? s.scratch.ctx = some g ∧
      t.ctxs = s.ctxs.set s.scratch.ctx { g with s0 := w.1, s1 := w.2 } ∧
      (w = stepMap (g.s0, g.s1) ∨ (s.phase = .jumping ∧ w = s.jumpEnd g)) := by
  obtain ⟨hi, -⟩ | ⟨_, _, hi, -⟩ | ⟨hp, hs⟩ | ⟨-, hs⟩ := step_cases s
  · exact absurd hi hb
  · exact absurd hi hb
  · obtain ⟨-, he⟩ | ⟨g, acc, hg, hacc, ⟨hi, he⟩ | ⟨-, he⟩⟩ := jumpPass_cases s <;>
      cases (hs.trans he).symm.trans h
    · exact ⟨rfl, g, acc, hg, rfl, .inr ⟨hp, hacc.trans (State.jumpEnd_of_last hi).symm⟩⟩
    · exact ⟨rfl, g, _, hg, rfl, .inl rfl⟩
  · obtain ⟨-, he⟩ | ⟨g, n, hg, rfl, ⟨-, he⟩ | ⟨-, -, he⟩ | ⟨d, -, -, he⟩⟩ := drawPass_cases s <;>
      cases (hs.trans he).symm.trans h <;>
    exact ⟨rfl, g, _, hg, rfl, .inl rfl⟩

/-- A pass leaves every valid flag as it was. -/
theorem pass_valid_eq (hb : s.phase ≠ .idle) (h : step s = .next t) {d : Nat} {g g' : Context} (hd : s.ctx? d = some g)
    (hd' : t.ctx? d = some g') : g'.valid = g.valid := by
  obtain ⟨-, old, w, hold, hset, -⟩ := pass_ctxs hb h
  obtain ⟨rfl, rfl⟩ | he := State.ctx?_of_set hset hd'
  · rw [Option.some.inj (hd.symm.trans hold)]
  · rw [Option.some.inj (hd.symm.trans he)]

end

/-- Settles O56: an instruction and a pass set at most the one context they act on. -/
theorem onlyNamedContextIsWritten : Obligations.OnlyNamedContextIsWritten := by
  unfold Obligations.OnlyNamedContextIsWritten
  refine ⟨fun i s t h => ?_, fun s t hb h => ?_⟩
  · obtain hsame | ⟨c, g, hw, hset⟩ := exec_ctxs h
    · simp [State.nctx, State.ctx?, hsame]
    · obtain ⟨hn, hother⟩ := State.frame_of_set hset
      exact ⟨hn, fun d hd => hother d fun e => hd (e ▸ hw.writtenContext_eq)⟩
  · obtain ⟨-, g, w, -, hset, -⟩ := pass_ctxs hb h
    exact State.frame_of_set hset

/-! ## The valid flags through one transition (R32) -/

section
variable {s t : State}

/-- A transition that is no pass waits, or answers an illegal header, or executes the instruction it takes. -/
theorem idle_step_cases (hp : s.phase = .idle) (h : step s = .next t) :
    (t.ctxs = s.ctxs ∧ t.phase = .idle) ∨ ∃ cmd rest i, s.commands = cmd :: rest ∧ decode cmd = .ok i ∧
      exec i { s with commands := rest } = .next t := by
  obtain ⟨-, -, he⟩ | ⟨cmd, rest, -, hc, he⟩ | ⟨hj, -⟩ | ⟨hd, -⟩ := step_cases s
  · cases he.symm.trans h
    exact .inl ⟨rfl, hp⟩
  · obtain ⟨_, -, hr⟩ | ⟨i, hi, hr⟩ := runCommand_cases cmd { s with commands := rest }
    · cases (he.trans hr).symm.trans h
      exact .inl ⟨rfl, rfl⟩
    · exact .inr ⟨cmd, rest, i, hc, hi, (he.trans hr).symm.trans h⟩
  · exact nomatch hp.symm.trans hj
  · exact nomatch hp.symm.trans hd

end

theorem step_keeps_valid {s t : State} {d : Nat} {g : Context} (h : step s = .next t) (hd : s.ctx? d = some g)
    (hv : g.valid = true) : ∃ g', t.ctx? d = some g' ∧ g'.valid = true := by
  by_cases hp : s.phase = .idle
  · obtain ⟨hsame, -⟩ | ⟨cmd, rest, i, -, -, he⟩ := idle_step_cases hp h
    · exact ⟨g, by rw [State.ctx?, hsame]; exact hd, hv⟩
    · exact exec_keeps_valid he (s := { s with commands := rest }) hd hv
  · obtain ⟨-, old, w, hold, hset, -⟩ := pass_ctxs hp h
    exact State.valid_of_set hset (fun g' hg' hv' => Option.some.inj (hold.symm.trans hg') ▸ hv') hd hv

/-- Settles O57: instructions write generators only, and only a NEW or a COPY where none was; a pass keeps the flag. -/
theorem validFlagOnlyRises : Obligations.ValidFlagOnlyRises := by
  unfold Obligations.ValidFlagOnlyRises
  refine ⟨fun s t d g h hd hv => step_keeps_valid h hd hv,
    fun i s t d g g' h hd hd' hv hv' => new_or_copy_of_exec_raises h hd hd' hv hv', fun s t d g g' h hd hd' hv hv' => ?_⟩
  have hne : g ≠ g' := fun e => nomatch hv.symm.trans ((congrArg Context.valid e).trans hv')
  by_cases hp : s.phase = .idle
  · obtain ⟨hsame, -⟩ | ⟨cmd, rest, i, hc, hi, he⟩ := idle_step_cases hp h
    · rw [State.ctx?, hsame] at hd'
      exact absurd (Option.some.inj (hd.symm.trans hd')) hne
    · exact ⟨hp, cmd, rest, i, hc, hi,
        new_or_copy_of_exec_raises he (s := { s with commands := rest }) hd hd' hv hv'⟩
  · exact nomatch hv.symm.trans ((pass_valid_eq hp h hd hd').symm.trans hv')

end Sys2Proof.Machine

namespace Sys2Proof.Machine

/-! ## No generator becomes all-zero (R34) -/

/-- A construction makes no all-zero state: `MIX(0)` is not 0 (R102, R110). -/
theorem seeded_ne_zero (n : Word) : ((seeded n).s0, (seeded n).s1) ≠ (0#64, 0#64) := by
  intro hz
  obtain rfl : n = 0#64 := congrArg Prod.snd hz
  exact absurd (congrArg Prod.fst hz) (by decide)

section
variable {s t : State} {i : Instr} {c : Nat} {g : Context}

/-- Where no generator is all-zero, an instruction writes none that is (R110, R121, R131). -/
theorem Writes.ne_zero (hs : s.NonDegenerate) (h : Writes s i c g) : (g.s0, g.s1) ≠ (0#64, 0#64) := by
  cases h with
  | new _ _ n => exact seeded_ne_zero n
  | copy hg hv =>
    have hsource := hs.words _ _ hg hv
    exact hsource
  | next hg hv => exact stepMap_ne_zero (hs.words _ _ hg hv)

/-- A state in IDLE asks for nothing but its generators. -/
theorem State.NonDegenerate.of_idle (hs : s.NonDegenerate) (hc : t.ctxs = s.ctxs) (hp : t.phase = .idle) :
    t.NonDegenerate where
  words d g hd := hs.words d g (by rw [← hd, State.ctx?, State.ctx?, hc])
  jumping hj := nomatch hp.symm.trans hj

/-- Taking a JUMP starts its loop; no other instruction leads to JUMPING (R144). -/
theorem jumpEnd_of_exec (h : exec i s = .next t) (hp : t.phase = .jumping) :
    t.ctxs = s.ctxs ∧ ∃ g, s.ctx? t.scratch.ctx = some g ∧ g.valid = true ∧ t.jumpEnd g = jumpWords (g.s0, g.s1) := by
  obtain ⟨-, he⟩ | ⟨-, he⟩ | ⟨t', hr, he⟩ := exec_cases i s <;> cases he.symm.trans h
  · exact nomatch hp
  · exact nomatch hp
  · cases i with
    | new =>
      obtain ⟨-, rfl⟩ := hr
      exact nomatch hp
    | copy =>
      obtain ⟨-, g, -, -, rfl⟩ := hr
      exact nomatch hp
    | jump c =>
      obtain ⟨g, hg, hv, rfl⟩ := hr
      exact ⟨rfl, g, hg, hv, rfl⟩
    | next =>
      obtain ⟨g, -, -, rfl⟩ := hr
      exact nomatch hp
    | range => obtain ⟨g, -, -, ⟨-, rfl⟩ | ⟨-, rfl⟩ | ⟨-, p, -, rfl⟩⟩ := hr <;> exact nomatch hp
    | mix =>
      obtain rfl := hr
      exact nomatch hp
    | rdmax =>
      obtain rfl := hr
      exact nomatch hp

theorem State.NonDegenerate.exec (hs : s.NonDegenerate) (h : exec i s = .next t) : t.NonDegenerate where
  words d g hd hv := by
    obtain hsame | ⟨c, w, hw, hset⟩ := exec_ctxs h
    · rw [State.ctx?, hsame] at hd
      exact hs.words d g hd hv
    · obtain ⟨-, rfl⟩ | hd := State.ctx?_of_set hset hd
      · exact hw.ne_zero hs
      · exact hs.words d g hd hv
  jumping hp g hg := by
    obtain ⟨hsame, g', hg', hv, hend⟩ := jumpEnd_of_exec h hp
    rw [State.ctx?, hsame] at hg
    obtain rfl := Option.some.inj (hg'.symm.trans hg)
    rw [hend]
    exact jumpWords_ne_zero (hs.words _ _ hg' hv)

/-- A pass that a running JUMP is not ended by leaves what the JUMP will end with (R142). -/
theorem jumpEnd_of_pass (hb : s.phase ≠ .idle) (h : step s = .next t) (hp : t.phase = .jumping) :
    s.phase = .jumping ∧ ∃ g g', s.ctx? s.scratch.ctx = some g ∧ t.ctx? t.scratch.ctx = some g' ∧
      t.jumpEnd g' = s.jumpEnd g := by
  obtain ⟨hi, -⟩ | ⟨_, _, hi, -⟩ | ⟨hj, hs⟩ | ⟨hd, hs⟩ := step_cases s
  · exact absurd hi hb
  · exact absurd hi hb
  · obtain ⟨-, he⟩ | ⟨g, acc, hg, rfl, ⟨-, he⟩ | ⟨hi, he⟩⟩ := jumpPass_cases s <;>
      cases (hs.trans he).symm.trans h
    · exact nomatch hp
    · refine ⟨hj, g, _, hg, s.ctx?_setCtx_self _ (s.lt_of_ctx?_eq_some hg), ?_⟩
      have hlt : s.scratch.iter.toNat < 127 := by bv_omega
      have hiter : (s.scratch.iter + 1#7).toNat = s.scratch.iter.toNat + 1 := by bv_omega
      have hleft : 128 - s.scratch.iter.toNat = 128 - (s.scratch.iter.toNat + 1) + 1 := by omega
      rw [State.jumpEnd, State.jumpEnd, hiter, hleft]
      rfl
  · obtain ⟨-, he⟩ | ⟨g, n, -, -, ⟨-, he⟩ | ⟨-, -, he⟩ | ⟨d, -, -, he⟩⟩ := drawPass_cases s <;>
      cases (hs.trans he).symm.trans h
    · exact nomatch hd.symm.trans hp
    · exact nomatch hp

theorem State.NonDegenerate.pass (hs : s.NonDegenerate) (hb : s.phase ≠ .idle) (h : step s = .next t) :
    t.NonDegenerate where
  words d g hd hv := by
    obtain ⟨-, old, w, hold, hset, hw⟩ := pass_ctxs hb h
    obtain ⟨-, rfl⟩ | hd := State.ctx?_of_set hset hd
    · obtain rfl | ⟨hj, rfl⟩ := hw
      · exact stepMap_ne_zero (hs.words _ _ hold hv)
      · exact hs.jumping hj _ hold
    · exact hs.words d g hd hv
  jumping hp g hg := by
    obtain ⟨hj, old, new, hold, hnew, hend⟩ := jumpEnd_of_pass hb h hp
    obtain rfl := Option.some.inj (hnew.symm.trans hg)
    rw [hend]
    exact hs.jumping hj old hold

end

/-- Settles O52: construction, copy, step and jump make no all-zero state of one that is not, and a pass of JUMP keeps what the
jump will end with. -/
theorem generatorsStayNonzero : Obligations.GeneratorsStayNonzero := by
  unfold Obligations.GeneratorsStayNonzero
  intro s t _ hs h
  by_cases hp : s.phase = .idle
  · obtain ⟨hsame, hidle⟩ | ⟨cmd, rest, i, -, -, he⟩ := idle_step_cases hp h
    · exact hs.of_idle hsame hidle
    · have htaken : ({ s with commands := rest } : State).NonDegenerate := ⟨hs.words, hs.jumping⟩
      exact htaken.exec he
  · exact hs.pass hp h

end Sys2Proof.Machine

namespace Sys2Proof.Machine

/-! ## Agreeing context files (R32, R43) -/

section
variable {l l' : List Context}

theorem Context.Agrees.refl (g : Context) : g.Agrees g := ⟨rfl, fun _ => rfl⟩

/-- Setting the same context at one index keeps the agreement. -/
theorem forall₂_agrees_set (h : List.Forall₂ Context.Agrees l l') (c : Nat) (g : Context) :
    List.Forall₂ Context.Agrees (l.set c g) (l'.set c g) := by
  induction h generalizing c with
  | nil => exact .nil
  | cons hd tl ih =>
    cases c with
    | zero => exact .cons (.refl g) tl
    | succ c => exact .cons hd (ih c)

/-- At one index neither file has a context, or they have agreeing ones. -/
theorem forall₂_agrees_getElem? (h : List.Forall₂ Context.Agrees l l') (c : Nat) :
    (l[c]? = none ∧ l'[c]? = none) ∨ ∃ g g', l[c]? = some g ∧ l'[c]? = some g' ∧ g.Agrees g' := by
  induction h generalizing c with
  | nil => exact .inl ⟨rfl, rfl⟩
  | cons hd _ ih =>
    cases c with
    | zero => exact .inr ⟨_, _, rfl, rfl, hd⟩
    | succ c => exact ih c

end

/-! ## Each operation keeps the agreement of two states (R37) -/

section
variable {s t : State}

/-- A generator is the same in both states. -/
theorem State.Agrees.ctx?_eq (h : s.Agrees t) {c : Nat} {g : Context} (hg : s.ctx? c = some g) (hv : g.valid = true) :
    t.ctx? c = some g := by
  obtain ⟨hnone, -⟩ | ⟨old, old', hold, hold', -, heq⟩ := forall₂_agrees_getElem? h.ctxs c
  · exact nomatch hg.symm.trans hnone
  · obtain rfl := Option.some.inj (hg.symm.trans hold)
    exact hold'.trans (congrArg some (heq hv).symm)

theorem State.Agrees.setCtx (h : s.Agrees t) (c : Nat) (g : Context) : (s.setCtx c g).Agrees (t.setCtx c g) :=
  { h with ctxs := forall₂_agrees_set h.ctxs c g }

/-- Once the command has ended the hidden registers and the count of their releases do not matter. -/
theorem State.Agrees.respond (h : s.Agrees t) (r : Response) : (s.respond r).Agrees (t.respond r) where
  ctxs := h.ctxs
  phase := rfl
  commands := h.commands
  entropy := h.entropy
  draws := h.draws
  responses := congrArg (· ++ [r]) h.responses
  jumping := nofun
  drawing := nofun

theorem State.Agrees.releaseScratch_respond (h : s.Agrees t) (r : Response) :
    (s.releaseScratch.respond r).Agrees (t.releaseScratch.respond r) :=
  { h.respond r with jumping := nofun, drawing := nofun }

theorem State.Agrees.drawEntropy (h : s.Agrees t) :
    s.drawEntropy.1 = t.drawEntropy.1 ∧ s.drawEntropy.2.Agrees t.drawEntropy.2 := by
  obtain ⟨e, rest, he, hd⟩ | ⟨he, hd⟩ := s.drawEntropy_cases
  · have hd' : t.drawEntropy = (e, { t with entropy := rest }) := by rw [State.drawEntropy, ← h.entropy, he]
    rw [hd, hd']
    exact ⟨rfl, { h with entropy := rfl }⟩
  · have hd' : t.drawEntropy = (Config.entropy s.draws, { t with draws := s.draws + 1 }) := by
      rw [State.drawEntropy, ← h.entropy, he, h.draws]
    rw [hd, hd']
    exact ⟨rfl, { h with draws := rfl }⟩

theorem State.Agrees.effectiveSeed (h : s.Agrees t) (seed : Option Word) :
    (effectiveSeed seed s).1 = (effectiveSeed seed t).1 ∧ (effectiveSeed seed s).2.Agrees (effectiveSeed seed t).2 := by
  cases seed with
  | none => exact h.drawEntropy
  | some a =>
    by_cases ha : a = 0#64
    · simpa [Machine.effectiveSeed, ha] using h.drawEntropy
    · simpa [Machine.effectiveSeed, ha] using h

/-! ## An instruction, and a pass, from two agreeing states -/

/-- Two outcomes that are next states, and agree. -/
def NextAgrees (r r' : Result) : Prop := ∃ s t, r = .next s ∧ r' = .next t ∧ s.Agrees t

theorem State.Agrees.nextAgrees (h : s.Agrees t) : NextAgrees (.next s) (.next t) := ⟨s, t, rfl, rfl, h⟩

theorem State.Agrees.raise (h : s.Agrees t) (st : Status) : NextAgrees (raise st s) (raise st t) :=
  (h.respond _).nextAgrees

/-- A context operand: the words of a context that holds no generator are not looked at (R32). -/
theorem State.Agrees.withContext (h : s.Agrees t) (c : Nat) {k k' : Context → Result}
    (hk : ∀ g g', g.Agrees g' → NextAgrees (k g) (k' g')) : NextAgrees (withContext c s k) (withContext c t k') := by
  obtain ⟨hs, ht⟩ | ⟨g, g', hs, ht, hg⟩ := forall₂_agrees_getElem? h.ctxs c
  · rw [withContext_none hs, withContext_none ht]
    exact h.raise _
  · rw [withContext_some hs, withContext_some ht]
    exact hk g g' hg

/-- A generator operand goes on with the same generator in both states. -/
theorem State.Agrees.withGenerator (h : s.Agrees t) (c : Nat) {k k' : Context → Result}
    (hk : ∀ g, NextAgrees (k g) (k' g)) : NextAgrees (withGenerator c s k) (withGenerator c t k') := by
  refine h.withContext c fun g g' ⟨hflag, heq⟩ => ?_
  cases hv : g.valid with
  | false => simpa [hv, ← hflag] using h.raise _
  | true =>
    obtain rfl := heq hv
    simpa [hv] using hk g

theorem State.Agrees.exec (h : s.Agrees t) (i : Instr) : NextAgrees (exec i s) (exec i t) := by
  cases i with
  | new c seed =>
    obtain ⟨hseed, hdrawn⟩ := h.effectiveSeed seed
    refine h.withContext c fun _ _ _ => ?_
    simp only [hseed]
    exact ((hdrawn.setCtx c _).respond _).nextAgrees
  | copy d src =>
    refine h.withContext d fun _ _ _ => h.withGenerator src fun g => ?_
    exact ((h.setCtx d _).respond _).nextAgrees
  | jump c =>
    refine h.withGenerator c fun _ => ?_
    exact State.Agrees.nextAgrees
      { h with phase := rfl, jumping := fun _ => ⟨rfl, rfl, rfl, rfl⟩, drawing := nofun }
  | next c => exact h.withGenerator c fun g => ((h.setCtx c _).releaseScratch_respond _).nextAgrees
  | range c lo hi =>
    refine h.withGenerator c fun _ => ?_
    split_ifs with heq hgt
    · exact (h.respond _).nextAgrees
    · exact (h.respond _).nextAgrees
    · have hlt : lo < hi := by
        simp only [gt_iff_lt, BitVec.lt_def, ← BitVec.toNat_inj] at heq hgt ⊢
        omega
      rw [rangeParams_of_lt hlt]
      exact State.Agrees.nextAgrees
        { h with phase := rfl, jumping := nofun, drawing := fun _ => ⟨rfl, rfl, rfl, rfl⟩ }
  | mix n => exact (h.respond _).nextAgrees
  | rdmax => exact (h.respond _).nextAgrees

theorem State.Agrees.runCommand (h : s.Agrees t) (c : Command) : NextAgrees (runCommand c s) (runCommand c t) := by
  unfold Machine.runCommand
  cases decode c with
  | error e => exact h.raise _
  | ok i => exact h.exec i

theorem step_of_no_command (hp : s.phase = .idle) (hc : s.commands = []) : step s = .next s := by
  simp [step, hp, State.takeCommand, hc]

theorem step_of_command (hp : s.phase = .idle) {c : Command} {rest : List Command} (hc : s.commands = c :: rest) :
    step s = Machine.runCommand c { s with commands := rest } := by
  simp [step, hp, State.takeCommand, hc]

/-- A transition that is no pass: both states wait, or take the same command. -/
theorem State.Agrees.idleStep (h : s.Agrees t) (hp : s.phase = .idle) : NextAgrees (step s) (step t) := by
  have hp' : t.phase = .idle := h.phase ▸ hp
  cases hc : s.commands with
  | nil =>
    rw [step_of_no_command hp hc, step_of_no_command hp' (h.commands ▸ hc)]
    exact h.nextAgrees
  | cons c rest =>
    rw [step_of_command hp hc, step_of_command hp' (h.commands ▸ hc)]
    have htaken : ({ s with commands := rest } : State).Agrees { t with commands := rest } := { h with commands := rfl }
    exact htaken.runCommand c

/-- The passes of a loop on a generator see the same in agreeing states. -/
theorem State.Agrees.samePass (h : s.Agrees t) (hi : s.Inv) (hb : s.phase ≠ .idle) : SamePass s t := by
  have hctx : s.scratch.ctx = t.scratch.ctx := by
    cases hp : s.phase with
    | idle => exact absurd hp hb
    | jumping => exact (h.jumping hp).1
    | drawing => exact (h.drawing hp).1
  obtain ⟨g, hg, hv⟩ := hi.busy hb
  exact {
    phase := h.phase
    ctx := hctx
    words := by rw [← hctx, hg, h.ctx?_eq hg hv]
    acc0 := fun hp => (h.jumping hp).2.1
    acc1 := fun hp => (h.jumping hp).2.2.1
    iter := fun hp => (h.jumping hp).2.2.2
    minL := fun hp => (h.drawing hp).2.1
    bucket := fun hp => (h.drawing hp).2.2.1
    threshold := fun hp => (h.drawing hp).2.2.2 }

theorem State.Agrees.pass (h : s.Agrees t) (hi : s.Inv) (hb : s.phase ≠ .idle) : NextAgrees (step s) (step t) := by
  obtain ⟨s', hs, -⟩ := hi.exists_step
  obtain ⟨t', g, new, ht, hw, hw', hend⟩ := (h.samePass hi hb).step hb hs
  have hb' : t.phase ≠ .idle := h.phase ▸ hb
  refine ⟨s', t', hs, ht, ?_⟩
  have hphase : s'.phase = t'.phase := by
    obtain ⟨hp, hp', -⟩ | ⟨-, -, -, hsame⟩ := hend
    · rw [hp, hp']
    · exact hsame.phase
  have hsame : s'.phase ≠ .idle → SamePass s' t' := fun hp => by
    obtain ⟨hidle, -⟩ | ⟨-, -, -, hsame⟩ := hend
    · exact absurd hidle hp
    · exact hsame
  exact {
    ctxs := by
      rw [hw.ctxs, hw'.ctxs]
      exact forall₂_agrees_set h.ctxs _ _
    phase := hphase
    commands := by rw [(pass_ctxs hb hs).1, (pass_ctxs hb' ht).1, h.commands]
    entropy := by rw [hw.entropy, hw'.entropy, h.entropy]
    draws := by rw [hw.draws, hw'.draws, h.draws]
    responses := by rw [hw.responses, hw'.responses, h.responses]
    jumping := fun hp =>
      have hl := hsame (hp ▸ nofun)
      ⟨hl.ctx, hl.acc0 hp, hl.acc1 hp, hl.iter hp⟩
    drawing := fun hp =>
      have hl := hsame (hp ▸ nofun)
      ⟨hl.ctx, hl.minL hp, hl.bucket hp, hl.threshold hp⟩ }

end

/-- Settles O59: a wait, an illegal header, every instruction and every pass keep the agreement. -/
theorem unspecifiedValuesAreUnobservable : Obligations.UnspecifiedValuesAreUnobservable := by
  unfold Obligations.UnspecifiedValuesAreUnobservable
  intro s t hi h
  by_cases hp : s.phase = .idle
  · exact h.idleStep hp
  · exact h.pass hi hp

end Sys2Proof.Machine

namespace Sys2Proof.Machine

/-! ## Commands on different contexts (R33, R60) -/

section
variable {s t : State} {i : Instr} {c : Nat}

/-- A complete instruction keeps every context that an instruction with no context in common names. -/
theorem Ended.ctx?_of_disjoint {g : Option Context} {r : Response} (h : Ended i g r s t) {j : Instr}
    (hij : ∀ c ∈ namedContexts i, c ∉ namedContexts j) : ∀ c ∈ namedContexts j, t.ctx? c = s.ctx? c :=
  fun c hc => h.frame.2 c fun hw => hij c (mem_namedContexts_of_written hw) hc

theorem SameEntropy.trans {u : State} (h : SameEntropy s t) (h' : SameEntropy t u) : SameEntropy s u :=
  ⟨h'.1.trans h.1, h'.2.trans h.2⟩

theorem SameEntropy.symm (h : SameEntropy s t) : SameEntropy t s := ⟨h.1.symm, h.2.symm⟩

/-- Two instructions with no context in common, at most one of which samples: each completes after the other, and the two
orders end with the same contexts and the same entropy port. -/
theorem completes_comm {i j : Instr} {s t t' : State} (hij : ∀ c ∈ namedContexts i, c ∉ namedContexts j)
    (hsam : ¬ (s.Samples i ∧ s.Samples j)) (hi : s.Completes i t) (hj : s.Completes j t') :
    ∃ (u u' : State) (p q : Response), t.Completes j u ∧ t'.Completes i u' ∧ u.ctxs = u'.ctxs ∧ SameEntropy u u' ∧
      u.responses = s.responses ++ [p, q] ∧ u'.responses = s.responses ++ [q, p] := by
  have hji : ∀ c ∈ namedContexts j, c ∉ namedContexts i := fun c hc hc' => hij c hc' hc
  obtain ⟨g, p, het, hpure, hi⟩ := hi.local
  obtain ⟨g', q, het', hpure', hj⟩ := hj.local
  obtain ⟨u, hu, heu, hun, hus⟩ := hj t het.frame.1 (het.ctx?_of_disjoint hij) fun h => hpure fun h' => hsam ⟨h', h⟩
  obtain ⟨u', hu', heu', hun', hus'⟩ :=
    hi t' het'.frame.1 (het'.ctx?_of_disjoint hji) fun h => hpure' fun h' => hsam ⟨h, h'⟩
  have hentropy : SameEntropy u u' := by
    by_cases hsi : s.Samples i
    · have hsj : ¬ s.Samples j := fun h => hsam ⟨hsi, h⟩
      exact (hun hsj).symm.trans (hus' hsi)
    · by_cases hsj : s.Samples j
      · exact (hus hsj).symm.trans (hun' hsi)
      · exact ((hpure hsi).trans (hun hsj)).symm.trans ((hpure' hsj).trans (hun' hsi))
  refine ⟨u, u', p, q, hu, hu', ?_, hentropy, ?_, ?_⟩
  · rw [heu.ctxs, het.ctxs, heu'.ctxs, het'.ctxs]
    exact afterWrite_comm hij g g' s.ctxs
  · rw [heu.responses, het.responses, List.append_assoc, List.singleton_append]
  · rw [heu'.responses, het'.responses, List.append_assoc, List.singleton_append]

/-- A NEW that samples takes the scripted draw as its seed (R111, R112). -/
theorem exec_new_of_samples {seed : Option Word} (h : s.Samples (.new c seed)) {e : Word} {rest : List Word}
    (he : s.entropy = e :: rest) :
    exec (.new c seed) s = .next (({ s with entropy := rest }.setCtx c (seeded e)).respond (Response.plain .ok)) := by
  obtain ⟨hc, hseed⟩ := h
  obtain ⟨g, hg⟩ : ∃ g, s.ctx? c = some g := ⟨_, List.getElem?_eq_getElem hc⟩
  have hdraw : effectiveSeed seed s = (e, { s with entropy := rest }) := by
    have hdrawn : s.drawEntropy = (e, { s with entropy := rest }) := by rw [State.drawEntropy, he]
    obtain rfl | rfl := hseed <;> exact hdrawn
  rw [show exec (.new c seed) s = _ from withContext_some hg _, hdraw]

/-- Two NEWs that sample get the scripted draws in the order they are taken (log entry 5). -/
theorem exec_new_new {d : Nat} {a b : Option Word} (ha : s.Samples (.new c a)) (hb : s.Samples (.new d b)) {e f : Word}
    {rest : List Word} (he : s.entropy = e :: f :: rest) :
    ∃ t u, exec (.new c a) s = .next t ∧ exec (.new d b) t = .next u ∧
      u.ctxs = (s.ctxs.set c (seeded e)).set d (seeded f) ∧ u.entropy = rest ∧
      u.responses = s.responses ++ [Response.plain .ok, Response.plain .ok] := by
  have hfirst := exec_new_of_samples ha he
  generalize ht : State.respond _ _ = t at hfirst
  have hb' : t.Samples (.new d b) := ⟨by simpa [← ht, State.nctx] using hb.1, hb.2⟩
  exact ⟨t, _, hfirst, exec_new_of_samples hb' (by rw [← ht]; rfl), by simp [← ht], rfl, by simp [← ht]⟩

/-- NEXT on a generator answers its output and steps its words (R132). -/
theorem exec_next_of_holds {w : Word × Word} (h : s.Holds c w) :
    exec (.next c) s =
      .next (((s.setCtx c ⟨(stepMap w).1, (stepMap w).2, true⟩).releaseScratch).respond
        (Response.value (stepOutput w))) :=
  withGenerator_valid h rfl _

/-- Two NEXTs on different generators answer the output of each. -/
theorem exec_next_next {d : Nat} (hcd : c ≠ d) {v w : Word × Word} (hv : s.Holds c v) (hw : s.Holds d w) :
    ∃ t u, exec (.next c) s = .next t ∧ exec (.next d) t = .next u ∧
      u.ctxs = (s.ctxs.set c ⟨(stepMap v).1, (stepMap v).2, true⟩).set d ⟨(stepMap w).1, (stepMap w).2, true⟩ ∧
      u.responses = s.responses ++ [Response.value (stepOutput v), Response.value (stepOutput w)] := by
  have hw' : (((s.setCtx c ⟨(stepMap v).1, (stepMap v).2, true⟩).releaseScratch).respond
      (Response.value (stepOutput v))).Holds d w := (s.ctx?_setCtx_other _ hcd.symm).trans hw
  exact ⟨_, _, exec_next_of_holds hv, exec_next_of_holds hw', rfl, by simp⟩

end

/-- Settles O60: a complete instruction is local to the contexts it names (`State.Completes.local`); the NEWs and NEXTs of the
last two clauses are executed in both orders. -/
theorem differentContextsDoNotInteract : Obligations.DifferentContextsDoNotInteract := by
  unfold Obligations.DifferentContextsDoNotInteract
  refine ⟨fun i j s t t' hij hsam hi hj => ?_, fun s c d a b e f rest hcd ha hb he => ?_, fun s c d v w hcd hv hw => ?_⟩
  · obtain ⟨u, u', p, q, hu, hu', hctxs, hentropy, hp, hq⟩ := completes_comm hij hsam hi hj
    exact ⟨u, u', p, q, hu, hu', hctxs, hentropy.1.symm, hentropy.2.symm, hp, hq⟩
  · obtain ⟨t, u, ht, hu, hctxs, hrest, hresp⟩ := exec_new_new ha hb he
    obtain ⟨t', u', ht', hu', hctxs', hrest', hresp'⟩ :=
      exec_new_new (s := { s with entropy := f :: e :: rest }) hb ha rfl
    refine ⟨t, t', u, u', ht, hu, ht', hu', ?_, hrest, hrest', hresp.trans hresp'.symm⟩
    rw [hctxs, hctxs']
    exact List.set_comm _ _ hcd
  · obtain ⟨t, u, ht, hu, hctxs, hresp⟩ := exec_next_next hcd hv hw
    obtain ⟨t', u', ht', hu', hctxs', hresp'⟩ := exec_next_next hcd.symm hw hv
    refine ⟨t, t', u, u', ht, hu, ht', hu', ?_, hresp, hresp'⟩
    rw [hctxs, hctxs']
    exact List.set_comm _ _ hcd

end Sys2Proof.Machine

namespace Sys2Proof.Machine

/-! ## The command and the response port (R52, R53) -/

/-- From `s` to `t` no command was taken, and the one in progress ended with one response, or is still owed its response. -/
structure AnswersOrOwes (s t : State) : Prop where
  commands : t.commands = s.commands
  answer   : (t.phase = .idle ∧ ∃ r, t.responses = s.responses ++ [r]) ∨ (t.phase ≠ .idle ∧ t.responses = s.responses)

section
variable {s t u : State}

theorem AnswersOrOwes.of_respond {r : Response} (ht : t = u.respond r) (hc : u.commands = s.commands)
    (hr : u.responses = s.responses) : AnswersOrOwes s t := by
  subst ht
  exact ⟨hc, .inl ⟨rfl, r, by rw [State.respond_responses, hr]⟩⟩

theorem AnswersOrOwes.of_enterLoop {ph : Phase} {sc : Scratch} (ht : t = { s with phase := ph, scratch := sc })
    (hp : ph ≠ .idle) : AnswersOrOwes s t := by
  subst ht
  exact ⟨rfl, .inr ⟨hp, rfl⟩⟩

/-- An instruction that runs responds, or goes into the loop of a JUMP or of a RANGE. -/
theorem Ran.answersOrOwes {i : Instr} (h : Ran i s t) : AnswersOrOwes s t := by
  cases i with
  | new c seed =>
    obtain ⟨-, ht⟩ := h
    obtain ⟨-, -, -, hcommands, -, hresponses⟩ := effectiveSeed_frame seed s
    exact .of_respond ht hcommands hresponses
  | copy d src =>
    obtain ⟨-, g, -, -, ht⟩ := h
    exact .of_respond ht rfl rfl
  | jump c =>
    obtain ⟨g, -, -, ht⟩ := h
    exact .of_enterLoop ht nofun
  | next c =>
    obtain ⟨g, -, -, ht⟩ := h
    exact .of_respond ht rfl rfl
  | range c lo hi =>
    obtain ⟨g, -, -, ⟨-, ht⟩ | ⟨-, ht⟩ | ⟨-, p, -, ht⟩⟩ := h
    · exact .of_respond ht rfl rfl
    · exact .of_respond ht rfl rfl
    · exact .of_enterLoop ht nofun
  | mix n => exact .of_respond h rfl rfl
  | rdmax => exact .of_respond h rfl rfl

theorem raise_answersOrOwes {st : Status} (h : raise st s = .next t) : AnswersOrOwes s t := by
  cases h
  exact .of_respond rfl rfl rfl

theorem exec_answersOrOwes {i : Instr} (h : exec i s = .next t) : AnswersOrOwes s t := by
  obtain ⟨-, he⟩ | ⟨-, he⟩ | ⟨t', hr, he⟩ := exec_cases i s
  · exact raise_answersOrOwes (he.symm.trans h)
  · exact raise_answersOrOwes (he.symm.trans h)
  · cases he.symm.trans h
    exact hr.answersOrOwes

theorem runCommand_answersOrOwes {c : Command} (h : runCommand c s = .next t) : AnswersOrOwes s t := by
  obtain ⟨_, -, hr⟩ | ⟨i, -, hr⟩ := runCommand_cases c s
  · exact raise_answersOrOwes (hr.symm.trans h)
  · exact exec_answersOrOwes (hr.symm.trans h)

/-- A pass of a loop: the responses are those that `SamePass.step` says every pass presents. -/
theorem pass_answersOrOwes (hb : s.phase ≠ .idle) (h : step s = .next t) : AnswersOrOwes s t := by
  obtain ⟨_, g, new, -, hw, -, hend⟩ := (SamePass.refl s).step hb h
  refine ⟨(pass_ctxs hb h).1, ?_⟩
  obtain ⟨hp, -, r, rfl⟩ | ⟨hp, rfl, -⟩ := hend
  · exact .inl ⟨hp, r, hw.responses⟩
  · exact .inr ⟨hp, hw.responses.trans s.responses.append_nil⟩

theorem AnswersOrOwes.exists_responses (h : AnswersOrOwes s t) : ∃ new, t.responses = s.responses ++ new := by
  obtain ⟨-, r, hr⟩ | ⟨-, hr⟩ := h.answer
  · exact ⟨[r], hr⟩
  · exact ⟨[], hr.trans s.responses.append_nil.symm⟩

/-- The command in progress counts once after the transition: as its response, or as the one owed. -/
theorem AnswersOrOwes.count (h : AnswersOrOwes s t) :
    t.commands.length + t.responses.length + (if t.phase = .idle then 0 else 1) =
      s.commands.length + s.responses.length + 1 := by
  rw [h.commands]
  obtain ⟨hp, r, hr⟩ | ⟨hp, hr⟩ := h.answer
  · rw [if_pos hp, hr, List.length_append, List.length_singleton]
    omega
  · rw [if_neg hp, hr]

/-- A command that decodes runs as its instruction (R77). -/
theorem runCommand_of_decode {c : Command} {i : Instr} (h : decode c = .ok i) : runCommand c s = exec i s := by
  rw [runCommand, h]

end

/-- Settles O55: a command taken leaves the port and is answered or owed; a pass answers what the busy block owes, or goes on
owing it. -/
theorem oneResponseForEachCommand : Obligations.OneResponseForEachCommand := by
  unfold Obligations.OneResponseForEachCommand
  intro s t h
  by_cases hp : s.phase = .idle
  · cases hc : s.commands with
    | nil =>
      cases (step_of_no_command hp hc).symm.trans h
      exact ⟨⟨[], s.responses.append_nil.symm⟩, by rw [hc]⟩
    | cons c rest =>
      have htaken : AnswersOrOwes { s with commands := rest } t :=
        runCommand_answersOrOwes ((step_of_command hp hc).symm.trans h)
      refine ⟨htaken.exists_responses, htaken.count.trans ?_⟩
      rw [if_pos hp, List.length_cons, Nat.add_zero]
      exact Nat.add_right_comm _ _ _
  · have hpass := pass_answersOrOwes hp h
    refine ⟨hpass.exists_responses, ?_⟩
    rw [hpass.count, if_neg hp]

/-- Settles O53: the command is taken off the port (`step_of_command`) and runs as its instruction. -/
theorem stepRunsDecodedInstruction : Obligations.StepRunsDecodedInstruction := by
  unfold Obligations.StepRunsDecodedInstruction
  intro s c rest i hp hc hi
  rw [step_of_command hp hc, runCommand_of_decode hi]

/-- Settles O54: an idle block with no command waits, and a pass takes no command (`pass_ctxs`). -/
theorem commandsAreTakenInIdleOnly : Obligations.CommandsAreTakenInIdleOnly := by
  unfold Obligations.CommandsAreTakenInIdleOnly
  refine ⟨fun s hp hc => step_of_no_command hp hc, fun s t hb h => ?_⟩
  obtain ⟨hcommands, -⟩ := pass_ctxs hb h
  exact hcommands

end Sys2Proof.Machine

/-! Proofs of the family 30_encoding.md: the fields of a header, the opcode map by fields, decoder and encoder, a command
as a number and as bytes, the kinds of responses, and FORK. -/

namespace Sys2Proof

/-! ## A header as its five fields (R71) -/

/-- The number a concatenation stands for. -/
theorem append_toNat {m n : Nat} (x : BitVec m) (y : BitVec n) : (x ++ y).toNat = x.toNat * 2 ^ n + y.toNat := by
  rw [BitVec.toNat_append, ← Nat.shiftLeft_add_eq_or_of_lt y.isLt, Nat.shiftLeft_eq]

/-- The header with these fields (R71). -/
def headerOf (opcode ctx src : Byte) (zero : BitVec 7) (sp : Bool) : Header :=
  opcode ++ ctx ++ src ++ zero ++ BitVec.ofBool sp

/-- A field by its place, as a number. -/
theorem headerField_eq (h : Header) (lo len : Nat) : headerField h lo len = h.toNat / 2 ^ lo % 2 ^ len := by
  rw [headerField, BitVec.extractLsb'_toNat, Nat.shiftRight_eq_div_pow]

theorem spBit_toNat (h : Header) : (spBit h).toNat = h.toNat % 2 := by
  simpa [spBit, BitVec.getLsbD] using Nat.toNat_testBit h.toNat 0

section
variable (opcode ctx src : Byte) (zero : BitVec 7) (sp : Bool)

theorem headerOf_toNat : (headerOf opcode ctx src zero sp).toNat =
    opcode.toNat * 2 ^ 24 + ctx.toNat * 2 ^ 16 + src.toNat * 2 ^ 8 + zero.toNat * 2 + sp.toNat := by
  simp only [headerOf, append_toNat, BitVec.toNat_ofBool]
  omega

@[simp] theorem opcodeField_headerOf : opcodeField (headerOf opcode ctx src zero sp) = opcode.toNat := by
  have := sp.toNat_le
  rw [opcodeField, headerField_eq, headerOf_toNat]
  omega

@[simp] theorem ctxField_headerOf : ctxField (headerOf opcode ctx src zero sp) = ctx.toNat := by
  have := sp.toNat_le
  rw [ctxField, headerField_eq, headerOf_toNat]
  omega

@[simp] theorem srcField_headerOf : srcField (headerOf opcode ctx src zero sp) = src.toNat := by
  have := sp.toNat_le
  rw [srcField, headerField_eq, headerOf_toNat]
  omega

@[simp] theorem zeroField_headerOf : zeroField (headerOf opcode ctx src zero sp) = zero.toNat := by
  have := sp.toNat_le
  rw [zeroField, headerField_eq, headerOf_toNat]
  omega

@[simp] theorem spBit_headerOf : spBit (headerOf opcode ctx src zero sp) = sp := by
  simp only [spBit, headerOf, BitVec.getLsbD_append]
  simp

end

/-- The value of a header is the sum of its fields in their places (R71). -/
theorem header_toNat (h : Header) : h.toNat =
    opcodeField h * 2 ^ 24 + ctxField h * 2 ^ 16 + srcField h * 2 ^ 8 + zeroField h * 2 + (spBit h).toNat := by
  simp only [opcodeField, ctxField, srcField, zeroField, headerField_eq, spBit_toNat]
  have := h.isLt
  omega

/-- Two headers with the same fields are the same. -/
theorem header_ext {h h' : Header} (hopcode : opcodeField h = opcodeField h') (hctx : ctxField h = ctxField h')
    (hsrc : srcField h = srcField h') (hzero : zeroField h = zeroField h') (hsp : spBit h = spBit h') : h = h' := by
  refine BitVec.eq_of_toNat_eq ?_
  rw [header_toNat h, header_toNat h', hopcode, hctx, hsrc, hzero, hsp]

/-- Two headers are the same exactly when their fields are. -/
theorem headerOf_inj {o c s o' c' s' : Byte} {z z' : BitVec 7} {p p' : Bool} :
    headerOf o c s z p = headerOf o' c' s' z' p' ↔ o = o' ∧ c = c' ∧ s = s' ∧ z = z' ∧ p = p' := by
  refine ⟨fun h => ?_, by rintro ⟨rfl, rfl, rfl, rfl, rfl⟩; rfl⟩
  have hfields := And.intro (congrArg opcodeField h) (And.intro (congrArg ctxField h) (And.intro (congrArg srcField h)
    (And.intro (congrArg zeroField h) (congrArg spBit h))))
  simpa [BitVec.toNat_inj] using hfields

/-- Every header is made of its fields. -/
theorem header_eq_headerOf (h : Header) :
    h = headerOf (h.extractLsb' 24 8) (h.extractLsb' 16 8) (h.extractLsb' 8 8) (h.extractLsb' 1 7) (spBit h) :=
  header_ext (by rw [opcodeField_headerOf]; rfl) (by rw [ctxField_headerOf]; rfl) (by rw [srcField_headerOf]; rfl)
    (by rw [zeroField_headerOf]; rfl) (by rw [spBit_headerOf])

/-! ## The fields of an encoded header (R71, R82) -/

section
variable (op : Opcode) (ctx src : Nat) (sp : Bool)

theorem encodeHeader_eq_headerOf : encodeHeader op ctx src sp =
    headerOf (BitVec.ofNat 8 op.row.code) (BitVec.ofNat 8 ctx) (BitVec.ofNat 8 src) 0#7 sp := rfl

@[simp] theorem opcodeField_encodeHeader : opcodeField (encodeHeader op ctx src sp) = op.row.code := by
  rw [encodeHeader_eq_headerOf, opcodeField_headerOf]
  cases op <;> rfl

@[simp] theorem ctxField_encodeHeader : ctxField (encodeHeader op ctx src sp) = ctx % 256 := by
  rw [encodeHeader_eq_headerOf, ctxField_headerOf, BitVec.toNat_ofNat]

@[simp] theorem srcField_encodeHeader : srcField (encodeHeader op ctx src sp) = src % 256 := by
  rw [encodeHeader_eq_headerOf, srcField_headerOf, BitVec.toNat_ofNat]

@[simp] theorem zeroField_encodeHeader : zeroField (encodeHeader op ctx src sp) = 0 := by
  rw [encodeHeader_eq_headerOf, zeroField_headerOf]
  rfl

@[simp] theorem spBit_encodeHeader : spBit (encodeHeader op ctx src sp) = sp := by
  rw [encodeHeader_eq_headerOf, spBit_headerOf]

end

/-! ## Which headers a row selects (R76, R78) -/

/-- The part of a row's mask over a byte: it tests the byte unless the operation uses it. -/
def byteMask (used : Prop) [Decidable used] : Byte := if used then 0#8 else BitVec.allOnes 8

theorem and_byteMask_eq_zero {used : Prop} [Decidable used] {x : Byte} :
    x &&& byteMask used = 0#8 ↔ (x.toNat ≠ 0 → used) := by
  by_cases h : used
  · simp [byteMask, h]
  · rw [byteMask, if_neg h, BitVec.and_allOnes, ← BitVec.toNat_inj]
    simp [h]

/-- The mask of every row tests the opcode, the must-be-zero bits, and the fields that the operation does not use. -/
theorem Opcode.row_mask (op : Opcode) : op.row.mask =
    headerOf (BitVec.allOnes 8) (byteMask (op ≠ .mix ∧ op ≠ .rdmax)) (byteMask (op = .copy)) (BitVec.allOnes 7)
      (decide (op ≠ .new)) := by
  cases op <;> rfl

theorem Opcode.row_pattern (op : Opcode) :
    op.row.pattern = headerOf (BitVec.ofNat 8 op.row.code) 0#8 0#8 0#7 false := by
  cases op <;> rfl

/-- Masking acts on the fields of a header separately. -/
theorem headerOf_and (o c s : Byte) (z : BitVec 7) (p : Bool) (o' c' s' : Byte) (z' : BitVec 7) (p' : Bool) :
    headerOf o c s z p &&& headerOf o' c' s' z' p' =
      headerOf (o &&& o') (c &&& c') (s &&& s') (z &&& z') (p && p') := by
  unfold headerOf
  rw [BitVec.and_append, BitVec.and_append, BitVec.and_append, BitVec.and_append, BitVec.ofBool_and_ofBool]

/-- The header is legal for the operation: its opcode is the operation's, and a field that is not 0 is one it uses (R78). -/
structure Opcode.Fits (op : Opcode) (h : Header) : Prop where
  opcode : opcodeField h = op.row.code
  ctx    : ctxField h ≠ 0 → op ≠ .mix ∧ op ≠ .rdmax
  src    : srcField h ≠ 0 → op = .copy
  zero   : zeroField h = 0
  sp     : spBit h = true → op = .new

/-- A row selects the headers that are legal for its operation. -/
theorem Opcode.selects_iff {op : Opcode} {h : Header} : op.row.selects h = true ↔ op.Fits h := by
  have hcode : h.extractLsb' 24 8 = BitVec.ofNat 8 op.row.code ↔ opcodeField h = op.row.code := by
    rw [← BitVec.toNat_inj]
    cases op <;> rfl
  have hzero : h.extractLsb' 1 7 = 0#7 ↔ zeroField h = 0 := BitVec.toNat_inj.symm
  have hsp : (spBit h && decide (op ≠ .new)) = false ↔ (spBit h = true → op = .new) := by cases spBit h <;> simp
  rw [OpcodeRow.selects, beq_iff_eq]
  conv_lhs =>
    rw [header_eq_headerOf h, op.row_mask, op.row_pattern, headerOf_and, headerOf_inj, BitVec.and_allOnes,
      BitVec.and_allOnes, hcode, and_byteMask_eq_zero, and_byteMask_eq_zero, hzero, hsp]
  exact ⟨fun ⟨hopcode, hctx, hsrc, hmbz, hbit⟩ => ⟨hopcode, hctx, hsrc, hmbz, hbit⟩,
    fun ⟨hopcode, hctx, hsrc, hmbz, hbit⟩ => ⟨hopcode, hctx, hsrc, hmbz, hbit⟩⟩

/-! ## The decoder by fields (R77, R78) -/

theorem Opcode.ofNumber_eq_some_iff {n : Nat} {op : Opcode} : Opcode.ofNumber n = some op ↔ n = op.row.code := by
  constructor
  · unfold Opcode.ofNumber
    split <;> rintro ⟨⟩ <;> rfl
  · rintro rfl
    cases op <;> rfl

theorem Opcode.ofNumber_eq_none_iff {n : Nat} : Opcode.ofNumber n = none ↔ n = 0 ∨ 8 ≤ n := by
  unfold Opcode.ofNumber
  split <;> grind

/-- A header is legal for at most one operation (R77). -/
theorem Opcode.Fits.unique {op op' : Opcode} {h : Header} (hop : op.Fits h) (hop' : op'.Fits h) : op = op' :=
  Option.some.inj ((ofNumber_eq_some_iff.mpr hop.opcode).symm.trans (ofNumber_eq_some_iff.mpr hop'.opcode))

theorem decode_of_fits {op : Opcode} {c : Command} (h : op.Fits c.h) : decode c = .ok (op.instr c) := by
  rw [decode, Opcode.ofNumber_eq_some_iff.mpr h.opcode]
  exact if_pos (Opcode.selects_iff.mpr h)

/-- A command decodes exactly when its header is legal for an operation, and then to that operation. -/
theorem decode_eq_ok_iff {c : Command} {i : Instr} :
    decode c = .ok i ↔ ∃ op : Opcode, op.Fits c.h ∧ op.instr c = i := by
  refine ⟨fun h => ?_, fun ⟨op, hop, hi⟩ => hi ▸ decode_of_fits hop⟩
  unfold decode at h
  split at h
  · cases h
  · split at h
    · exact ⟨_, Opcode.selects_iff.mp ‹_›, Except.ok.inj h⟩
    · cases h

/-- A command is refused exactly when its header is legal for no operation. -/
theorem decode_eq_error_iff {c : Command} : (∃ e, decode c = .error e) ↔ ∀ op : Opcode, ¬ op.Fits c.h := by
  refine ⟨fun ⟨e, he⟩ op hop => (nomatch he.symm.trans (decode_of_fits hop)), fun h => ?_⟩
  cases hd : decode c with
  | error e => exact ⟨e, rfl⟩
  | ok i =>
    obtain ⟨op, hop, -⟩ := decode_eq_ok_iff.mp hd
    exact absurd hop (h op)

/-! ## Decoding an encoding (R82) -/

/-- The encoding of an instruction is legal for its operation. -/
theorem fits_encode (i : Instr) : i.opcode.Fits (encode i).h := by
  refine Opcode.selects_iff.mp ?_
  cases i with
  | new ctx seed => exact Laws.EncodesOwnRow.new ctx seed
  | copy ctx src => exact Laws.EncodesOwnRow.copy ctx src
  | jump ctx => exact Laws.EncodesOwnRow.jump ctx
  | next ctx => exact Laws.EncodesOwnRow.next ctx
  | range ctx min max => exact Laws.EncodesOwnRow.range ctx min max
  | mix n => exact Laws.EncodesOwnRow.mix n
  | rdmax => exact Laws.EncodesOwnRow.rdmax

theorem mod_of_indexFits {c : Nat} (h : indexFits c = true) : c % 256 = c := Nat.mod_eq_of_lt (of_decide_eq_true h)

/-- A well-formed instruction's operands are read back from its encoding. -/
theorem instr_encode {i : Instr} (h : WellFormed i) : i.opcode.instr (encode i) = i := by
  cases i with
  | new ctx seed => cases seed <;> simp [Instr.opcode, Opcode.instr, encode, mod_of_indexFits h]
  | copy ctx src =>
    obtain ⟨hctx, hsrc⟩ := Bool.and_eq_true_iff.mp h
    simp [Instr.opcode, Opcode.instr, encode, mod_of_indexFits hctx, mod_of_indexFits hsrc]
  | jump | next | range => simp [Instr.opcode, Opcode.instr, encode, mod_of_indexFits h]
  | mix | rdmax => rfl

theorem decode_encode {i : Instr} (h : WellFormed i) : decode (encode i) = .ok i :=
  decode_eq_ok_iff.mpr ⟨i.opcode, fits_encode i, instr_encode h⟩

/-- Settles O37: the encoded header is legal for its operation alone, whose fields and words are the operands. -/
theorem decodeOfEncode : Obligations.DecodeOfEncode := by
  unfold Obligations.DecodeOfEncode
  exact fun i h => decode_encode h

/-! ## Encoding what was decoded (R71, R72) -/

theorem ctxField_lt (h : Header) : ctxField h < 256 := (h.extractLsb' 16 8).isLt

theorem srcField_lt (h : Header) : srcField h < 256 := (h.extractLsb' 8 8).isLt

theorem wellFormed_instr (op : Opcode) (c : Command) : WellFormed (op.instr c) := by
  cases op <;> simp [WellFormed, Opcode.instr, Instr.wf, indexFits, ctxField_lt, srcField_lt]

section
variable {op : Opcode} {h : Header} (hop : op.Fits h)
include hop

theorem Opcode.Fits.ctxField_eq_zero (hne : op = .mix ∨ op = .rdmax) : ctxField h = 0 := by
  by_contra hctx
  obtain ⟨hmix, hrdmax⟩ := hop.ctx hctx
  exact hne.elim hmix hrdmax

theorem Opcode.Fits.srcField_eq_zero (hne : op ≠ .copy) : srcField h = 0 := by
  by_contra hsrc
  exact hne (hop.src hsrc)

theorem Opcode.Fits.spBit_eq_false (hne : op ≠ .new) : spBit h = false := by
  by_contra hsp
  exact hne (hop.sp (Bool.not_eq_false _ ▸ hsp))

/-- A legal header is the encoding of its fields. -/
theorem Opcode.Fits.encodeHeader_eq : encodeHeader op (ctxField h) (srcField h) (spBit h) = h := by
  have hctx : ctxField h % 256 = ctxField h := Nat.mod_eq_of_lt (ctxField_lt h)
  have hsrc : srcField h % 256 = srcField h := Nat.mod_eq_of_lt (srcField_lt h)
  exact header_ext (by simp [hop.opcode]) (by simp [hctx]) (by simp [hsrc]) (by simp [hop.zero]) (by simp)

end

/-- A legal command's instruction encodes to the command's header: the fields that it does not use are 0. -/
theorem encode_instr_h {op : Opcode} {c : Command} (hop : op.Fits c.h) : (encode (op.instr c)).h = c.h := by
  refine Eq.trans ?_ hop.encodeHeader_eq
  cases op with
  | new =>
    rw [hop.srcField_eq_zero nofun]
    cases hsp : spBit c.h <;> simp [Opcode.instr, encode, hsp]
  | copy => rw [hop.spBit_eq_false nofun]; rfl
  | mix | rdmax => rw [hop.srcField_eq_zero nofun, hop.spBit_eq_false nofun, hop.ctxField_eq_zero (by simp)]; rfl
  | _ => rw [hop.srcField_eq_zero nofun, hop.spBit_eq_false nofun]; rfl

/-- A decoded instruction's operand words are the command's, or 0 where it has none. -/
theorem encode_instr_words (op : Opcode) (c : Command) :
    ((encode (op.instr c)).a = c.a ∨ (encode (op.instr c)).a = 0#64) ∧
      ((encode (op.instr c)).b = c.b ∨ (encode (op.instr c)).b = 0#64) := by
  cases op with
  | new => cases hsp : spBit c.h <;> simp [Opcode.instr, encode, hsp]
  | _ => simp [Opcode.instr, encode]

/-- Settles O38: the header is the encoding of its fields (`encode_instr_h`), so the last clause is `decode_encode`. -/
theorem encodeOfDecode : Obligations.EncodeOfDecode := by
  unfold Obligations.EncodeOfDecode
  intro c i h
  obtain ⟨op, hop, rfl⟩ := decode_eq_ok_iff.mp h
  have hheader := encode_instr_h hop
  obtain ⟨ha, hb⟩ := encode_instr_words op c
  refine ⟨wellFormed_instr op c, hheader, ha, hb, ?_⟩
  rw [← hheader]
  exact decode_encode (wellFormed_instr op c)

/-! ## No header is legal for two operations (R77) -/

theorem mem_opcodeTable {r : OpcodeRow} : r ∈ opcodeTable ↔ ∃ op : Opcode, r = op.row := by
  constructor
  · intro h
    simp only [opcodeTable, List.mem_cons, List.not_mem_nil, or_false] at h
    obtain h | h | h | h | h | h | h := h <;> exact ⟨_, h⟩
  · rintro ⟨op, rfl⟩
    cases op <;> decide

@[simp] theorem Opcode.row_opcode (op : Opcode) : op.row.opcode = op := by cases op <;> rfl

/-- Settles O39: a row selects the headers that are legal for its operation (`Opcode.selects_iff`). -/
theorem decodingIsUnambiguous : Obligations.DecodingIsUnambiguous := by
  unfold Obligations.DecodingIsUnambiguous
  refine fun c => ⟨fun r hr r' hr' h h' => ?_, ⟨fun ⟨i, hi⟩ => ?_, fun ⟨r, hr, h⟩ => ?_⟩, fun r hr h => ?_⟩
  · obtain ⟨op, rfl⟩ := mem_opcodeTable.mp hr
    obtain ⟨op', rfl⟩ := mem_opcodeTable.mp hr'
    rw [(Opcode.selects_iff.mp h).unique (Opcode.selects_iff.mp h')]
  · obtain ⟨op, hop, -⟩ := decode_eq_ok_iff.mp hi
    exact ⟨op.row, mem_opcodeTable.mpr ⟨op, rfl⟩, Opcode.selects_iff.mpr hop⟩
  · obtain ⟨op, rfl⟩ := mem_opcodeTable.mp hr
    exact ⟨_, decode_of_fits (Opcode.selects_iff.mp h)⟩
  · obtain ⟨op, rfl⟩ := mem_opcodeTable.mp hr
    rw [op.row_opcode]
    exact decode_of_fits (Opcode.selects_iff.mp h)

/-! ## Illegal headers (R78, R181) -/

/-- The conditions of R78, by the fields of the header. -/
def IllegalFields (h : Header) : Prop :=
  opcodeField h = 0 ∨ 8 ≤ opcodeField h ∨ zeroField h ≠ 0 ∨ (spBit h = true ∧ opcodeField h ≠ 1) ∨
    (srcField h ≠ 0 ∧ opcodeField h ≠ 2) ∨ (ctxField h ≠ 0 ∧ (opcodeField h = 6 ∨ opcodeField h = 7))

/-- Of the headers with an operation's opcode, R78 leaves those that are legal for it. -/
theorem Opcode.fits_iff_not_illegalFields {op : Opcode} {h : Header} (hcode : opcodeField h = op.row.code) :
    op.Fits h ↔ ¬ IllegalFields h := by
  have hzero : ¬ opcodeField h = 0 := by rw [hcode]; cases op <;> decide
  have hlarge : ¬ 8 ≤ opcodeField h := by rw [hcode]; cases op <;> decide
  have hnew : opcodeField h = 1 ↔ op = .new := by rw [hcode]; cases op <;> decide
  have hcopy : opcodeField h = 2 ↔ op = .copy := by rw [hcode]; cases op <;> decide
  have hmix : opcodeField h = 6 ↔ op = .mix := by rw [hcode]; cases op <;> decide
  have hrdmax : opcodeField h = 7 ↔ op = .rdmax := by rw [hcode]; cases op <;> decide
  simp only [IllegalFields, ne_eq, hnew, hcopy, hmix, hrdmax, hzero, hlarge, false_or, not_or, not_and, not_not]
  exact ⟨fun ⟨_, hctx, hsrc, hmbz, hsp⟩ => ⟨hmbz, hsp, hsrc, hctx⟩,
    fun ⟨hmbz, hsp, hsrc, hctx⟩ => ⟨hcode, hctx, hsrc, hmbz, hsp⟩⟩

/-- The conditions of R78 are met by the headers that are legal for no operation. -/
theorem illegalFields_iff {h : Header} : IllegalFields h ↔ ∀ op : Opcode, ¬ op.Fits h := by
  constructor
  · intro hillegal op hop
    exact (Opcode.fits_iff_not_illegalFields hop.opcode).mp hop hillegal
  · intro hnone
    cases hn : Opcode.ofNumber (opcodeField h) with
    | none => exact (Opcode.ofNumber_eq_none_iff.mp hn).imp_right .inl
    | some op =>
      have hcode := Opcode.ofNumber_eq_some_iff.mp hn
      exact not_not.mp fun hlegal => hnone op ((Opcode.fits_iff_not_illegalFields hcode).mpr hlegal)

theorem Machine.runCommand_of_error {c : Command} {s : Machine.State} {e : DecodeError} (h : decode c = .error e) :
    Machine.runCommand c s = Machine.raise .errIllegal s := by
  rw [Machine.runCommand, h]

/-- Settles O40: the conditions of R78 say that the header is legal for no operation (`illegalFields_iff`). -/
theorem illegalHeadersDoNothing : Obligations.IllegalHeadersDoNothing := by
  unfold Obligations.IllegalHeadersDoNothing
  exact fun c s => ⟨decode_eq_error_iff.trans illegalFields_iff.symm, fun ⟨_, he⟩ => Machine.runCommand_of_error he⟩

/-! ## Operand words (R72), and words written out from the spec (R82) -/

/-- Settles O41: the header alone decides, and the operands are read from the words. -/
theorem ignoredWordsDoNotMatter : Obligations.IgnoredWordsDoNotMatter := by
  unfold Obligations.IgnoredWordsDoNotMatter
  intro h a b a' b' i hi
  obtain ⟨op, hop, rfl⟩ := decode_eq_ok_iff.mp hi
  have hop' : op.Fits (Command.mk h a' b').h := hop
  rw [decode_of_fits hop']
  cases op with
  | new => cases hsp : spBit h <;> simp [Opcode.instr, hsp]
  | _ => rfl

/-- Settles O42: each word is run through the decoder. -/
theorem specWordsDecode : Obligations.SpecWordsDecode := by
  unfold Obligations.SpecWordsDecode
  decide

/-! ## A command as one number (R70) -/

theorem Command.bits_toNat (c : Command) : c.bits.toNat = c.b.toNat * 2 ^ 96 + c.a.toNat * 2 ^ 32 + c.h.toNat := by
  simp only [Command.bits, append_toNat]
  omega

theorem Command.h_of_bits (c : Command) : c.bits.extractLsb' 0 32 = c.h := BitVec.extractLsb'_append_eq_right

theorem Command.a_of_bits (c : Command) : c.bits.extractLsb' 32 64 = c.a := by
  rw [Command.bits, BitVec.extractLsb'_append_eq_of_le (by decide)]
  exact BitVec.extractLsb'_append_eq_right

theorem Command.b_of_bits (c : Command) : c.bits.extractLsb' 96 64 = c.b := by
  rw [Command.bits, BitVec.extractLsb'_append_eq_of_le (by decide)]
  exact BitVec.extractLsb'_append_eq_left

theorem Command.ofNat_bits (c : Command) : Command.ofNat c.bits.toNat = c := by
  change Command.mk (c.bits.extractLsb' 0 32) (c.bits.extractLsb' 32 64) (c.bits.extractLsb' 96 64) = c
  rw [c.h_of_bits, c.a_of_bits, c.b_of_bits]

/-! ## A command as bytes (R54, R86) -/

@[simp] theorem length_leBytes (n v : Nat) : (leBytes n v).length = n := by
  induction n generalizing v with
  | zero => rfl
  | succ n ih => rw [leBytes, List.length_cons, ih]

theorem leNat_leBytes (n v : Nat) : leNat (leBytes n v) = v % 256 ^ n := by
  induction n generalizing v with
  | zero => rw [Nat.pow_zero, Nat.mod_one]; rfl
  | succ n ih =>
    have hbyte : (BitVec.ofNat 8 v).toNat = v % 256 := BitVec.toNat_ofNat v 8
    rw [leBytes, leNat, ih, hbyte, Nat.pow_succ', Nat.mod_mul]

theorem leNat_append (xs ys : List Byte) : leNat (xs ++ ys) = leNat xs + 256 ^ xs.length * leNat ys := by
  induction xs with
  | nil => simp [leNat]
  | cons x xs ih =>
    rw [List.cons_append, leNat, leNat, ih, List.length_cons]
    ring

theorem Command.length_toBytes (c : Command) : c.toBytes.length = 20 := by simp [Command.toBytes]

/-- The bytes of a command are those of its one number, the least significant first. -/
theorem Command.leNat_toBytes (c : Command) : leNat c.toBytes = c.bits.toNat := by
  have hh : c.h.toNat % 256 ^ 4 = c.h.toNat := Nat.mod_eq_of_lt c.h.isLt
  have ha : c.a.toNat % 256 ^ 8 = c.a.toNat := Nat.mod_eq_of_lt c.a.isLt
  have hb : c.b.toNat % 256 ^ 8 = c.b.toNat := Nat.mod_eq_of_lt c.b.isLt
  rw [Command.toBytes, leNat_append, leNat_append, List.length_append, length_leBytes, length_leBytes, leNat_leBytes,
    leNat_leBytes, leNat_leBytes, hh, ha, hb, c.bits_toNat]
  omega

theorem Command.ofBytes_toBytes_append (c : Command) (rest : List Byte) : Command.ofBytes (c.toBytes ++ rest) = c := by
  rw [Command.ofBytes, List.take_left' c.length_toBytes, c.leNat_toBytes, c.ofNat_bits]

theorem decodeBytes_toBytes_append (c : Command) (rest : List Byte) :
    decodeBytes (c.toBytes ++ rest) = (decode c).map fun i => (i, rest) := by
  have hlong : ¬ (c.toBytes ++ rest).length < 20 := by
    rw [List.length_append, c.length_toBytes]
    omega
  rw [decodeBytes, if_neg hlong, c.ofBytes_toBytes_append, List.drop_left' c.length_toBytes]

/-- Settles O43: the parts of a concatenation are read back, and the bytes are the digits of its number in base 256. -/
theorem commandBitsAndBytesRoundTrip : Obligations.CommandBitsAndBytesRoundTrip := by
  unfold Obligations.CommandBitsAndBytesRoundTrip
  exact fun c rest => ⟨header_toNat c.h, c.h_of_bits, c.a_of_bits, c.b_of_bits, c.ofNat_bits, c.length_toBytes,
    decodeBytes_toBytes_append c rest⟩

end Sys2Proof

namespace Sys2Proof.Machine

/-! ## The responses a step presents (R74, R75) -/

theorem Response.header_toNat (r : Response) : r.header.toNat = (if r.dv then 256 else 0) + r.status.code.toNat := by
  rw [Response.header, append_toNat, append_toNat, BitVec.toNat_ofBool]
  cases r.dv <;> simp

/-- A response of R75: a status without a value, or OK with one. -/
def Response.Listed (r : Response) : Prop := (∃ st, r = Response.plain st) ∨ ∃ d, r = Response.value d

theorem Response.Listed.header_mem {r : Response} (h : r.Listed) :
    r.header ∈ [0x00000000#32, 0x00000100#32, 0x00000001#32, 0x00000002#32, 0x00000003#32] := by
  obtain ⟨st, rfl⟩ | ⟨d, rfl⟩ := h
  · cases st <;> simp [Response.header, Response.plain, Status.code]
  · simp [Response.header, Response.value, Status.code]

theorem Response.Listed.data_eq_zero {r : Response} (h : r.Listed) (hdv : r.dv = false) : r.data = 0#64 := by
  obtain ⟨st, rfl⟩ | ⟨d, rfl⟩ := h
  · rfl
  · cases hdv

/-- From `s` to `t` no response was presented, or one of those that R75 lists. -/
def PresentsListed (s t : State) : Prop :=
  t.responses = s.responses ∨ ∃ r : Response, r.Listed ∧ t.responses = s.responses ++ [r]

section
variable {s t u : State}

theorem PresentsListed.of_plain {st : Status} (ht : t = u.respond (Response.plain st))
    (hr : u.responses = s.responses) : PresentsListed s t :=
  .inr ⟨_, .inl ⟨st, rfl⟩, by rw [ht, State.respond_responses, hr]⟩

theorem PresentsListed.of_value {d : Word} (ht : t = u.respond (Response.value d))
    (hr : u.responses = s.responses) : PresentsListed s t :=
  .inr ⟨_, .inr ⟨d, rfl⟩, by rw [ht, State.respond_responses, hr]⟩

theorem Ran.presentsListed {i : Instr} (h : Ran i s t) : PresentsListed s t := by
  cases i with
  | new c seed =>
    obtain ⟨-, ht⟩ := h
    obtain ⟨-, -, -, -, -, hresponses⟩ := effectiveSeed_frame seed s
    exact .of_plain ht hresponses
  | copy d src =>
    obtain ⟨-, g, -, -, ht⟩ := h
    exact .of_plain ht rfl
  | jump c =>
    obtain ⟨g, -, -, rfl⟩ := h
    exact .inl rfl
  | next c =>
    obtain ⟨g, -, -, ht⟩ := h
    exact .of_value ht rfl
  | range c lo hi =>
    obtain ⟨g, -, -, ⟨-, ht⟩ | ⟨-, ht⟩ | ⟨-, p, -, rfl⟩⟩ := h
    · exact .of_value ht rfl
    · exact .of_value ht rfl
    · exact .inl rfl
  | mix n => exact .of_value h rfl
  | rdmax => exact .of_value h rfl

theorem raise_presentsListed {st : Status} (h : raise st s = .next t) : PresentsListed s t := by
  cases h
  exact .of_plain rfl rfl

theorem exec_presentsListed {i : Instr} (h : exec i s = .next t) : PresentsListed s t := by
  obtain ⟨-, he⟩ | ⟨-, he⟩ | ⟨t', hr, he⟩ := exec_cases i s
  · exact raise_presentsListed (he.symm.trans h)
  · exact raise_presentsListed (he.symm.trans h)
  · cases he.symm.trans h
    exact hr.presentsListed

theorem runCommand_presentsListed {c : Command} (h : runCommand c s = .next t) : PresentsListed s t := by
  obtain ⟨_, -, hr⟩ | ⟨i, -, hr⟩ := runCommand_cases c s
  · exact raise_presentsListed (hr.symm.trans h)
  · exact exec_presentsListed (hr.symm.trans h)

theorem jumpPass_presentsListed (h : jumpPass s = .next t) : PresentsListed s t := by
  obtain ⟨-, he⟩ | ⟨g, acc, -, -, ⟨-, he⟩ | ⟨-, he⟩⟩ := jumpPass_cases s <;> cases he.symm.trans h
  · exact .of_plain rfl rfl
  · exact .inl rfl

theorem drawPass_presentsListed (h : drawPass s = .next t) : PresentsListed s t := by
  obtain ⟨-, he⟩ | ⟨g, n, -, -, ⟨-, he⟩ | ⟨-, -, he⟩ | ⟨d, -, -, he⟩⟩ := drawPass_cases s <;>
    cases he.symm.trans h
  · exact .inl rfl
  · exact .of_value rfl rfl

theorem step_presentsListed (h : step s = .next t) : PresentsListed s t := by
  obtain ⟨-, -, he⟩ | ⟨c, rest, -, -, he⟩ | ⟨-, he⟩ | ⟨-, he⟩ := step_cases s
  · cases he.symm.trans h
    exact .inl rfl
  · exact runCommand_presentsListed (s := { s with commands := rest }) (he.symm.trans h)
  · exact jumpPass_presentsListed (he.symm.trans h)
  · exact drawPass_presentsListed (he.symm.trans h)

end

/-- Settles O44: every operation that ends a command responds with a status without a value, or with OK and a value. -/
theorem responsesAreOfFiveKinds : Obligations.ResponsesAreOfFiveKinds := by
  unfold Obligations.ResponsesAreOfFiveKinds
  refine ⟨Response.header_toNat, fun s t h => ?_⟩
  obtain hnone | ⟨r, hlisted, hr⟩ := step_presentsListed h
  · exact .inl hnone
  · exact .inr ⟨r, hr, hlisted.header_mem, hlisted.data_eq_zero⟩

/-! ## The passes of a JUMP (R142, R144) -/

/-- The end of a JUMP on context `c` with the words `w`: it writes them, releases the hidden registers and responds. -/
def State.jumped (s : State) (c : Nat) (w : Word × Word) : State :=
  ((s.setCtx c ⟨w.1, w.2, true⟩).releaseScratch).respond (Response.plain .ok)

section
variable {s : State} {w : Word × Word}

/-- What the running context and the registers held before does not show at the end. -/
theorem State.jumped_setCtx (c : Nat) (g : Context) (sc : Scratch) (w : Word × Word) :
    ({ s.setCtx c g with scratch := sc } : State).jumped c w = s.jumped c w := by
  simp [State.jumped, State.setCtx, State.releaseScratch, State.respond]

theorem step_of_jumping (hp : s.phase = .jumping) : step s = jumpPass s := by rw [step, hp]

theorem jumpPass_last (hw : s.Holds s.scratch.ctx w) (hi : s.scratch.iter = 127#7) :
    jumpPass s = .next (s.jumped s.scratch.ctx
      (accumulate s.scratch.iter.toNat (s.scratch.acc0, s.scratch.acc1) w)) := by
  rw [jumpPass, hw]
  exact if_pos hi

/-- The state after a pass that is not the last. -/
def State.passed (s : State) (w : Word × Word) : State :=
  let acc := accumulate s.scratch.iter.toNat (s.scratch.acc0, s.scratch.acc1) w
  { s.setCtx s.scratch.ctx ⟨(stepMap w).1, (stepMap w).2, true⟩ with
    scratch := { s.scratch with acc0 := acc.1, acc1 := acc.2, iter := s.scratch.iter + 1#7 } }

theorem jumpPass_not_last (hw : s.Holds s.scratch.ctx w) (hi : s.scratch.iter ≠ 127#7) :
    jumpPass s = .next (s.passed w) := by
  rw [jumpPass, hw]
  exact if_neg hi

end

/-- One iteration of a jump, and then the others (R142). -/
theorem jumpLoop_succ (n k : Nat) (acc w : Word × Word) :
    jumpLoop (n + 1) k acc w = jumpLoop n (k + 1) (accumulate k acc w) (stepMap w) := rfl

/-- From JUMPING(127 - n) the JUMP ends `n + 1` passes later with the accumulators of its loop. -/
theorem State.runsTo_jumped (n : Nat) : ∀ {s : State} {w : Word × Word}, s.phase = .jumping →
    s.scratch.iter.toNat + n = 127 → s.Holds s.scratch.ctx w →
    s.RunsTo (n + 1) (s.jumped s.scratch.ctx
      (jumpLoop (n + 1) s.scratch.iter.toNat (s.scratch.acc0, s.scratch.acc1) w)) := by
  induction n with
  | zero =>
    intro s w hp hn hw
    have hi : s.scratch.iter = 127#7 := BitVec.eq_of_toNat_eq hn
    exact State.runsTo_succ ((step_of_jumping hp).trans (jumpPass_last hw hi)) (State.runsTo_zero _)
  | succ n ih =>
    intro s w hp hn hw
    have hi : s.scratch.iter ≠ 127#7 := by bv_omega
    have hiter : (s.scratch.iter + 1#7).toNat = s.scratch.iter.toNat + 1 := by bv_omega
    have hpassed : (s.passed w).scratch.iter.toNat = s.scratch.iter.toNat + 1 := hiter
    have hrest := ih (s := s.passed w) hp (by rw [hpassed]; omega) (s.ctx?_setCtx_self _ (s.lt_of_ctx?_eq_some hw))
    rw [hpassed] at hrest
    have hend : (s.passed w).jumped s.scratch.ctx = s.jumped s.scratch.ctx := funext (State.jumped_setCtx _ _ _)
    rw [jumpLoop_succ, ← hend]
    exact State.runsTo_succ ((step_of_jumping hp).trans (jumpPass_not_last hw hi)) hrest

/-! ## Commands at an idle block (R52) -/

section
variable {s : State} {c : Nat} {w : Word × Word} {rest : List Command}

/-- An idle block takes a well-formed instruction that is presented, and executes it. -/
theorem step_of_encode {i : Instr} (hp : s.phase = .idle) (hi : WellFormed i) (hc : s.commands = encode i :: rest) :
    step s = exec i { s with commands := rest } := by
  rw [step_of_command hp hc, runCommand_of_decode (decode_encode hi)]

/-- JUMP presented to an idle block takes 129 transitions: the one that takes it, and its passes. -/
theorem State.runsTo_jump_command (hp : s.phase = .idle) (hlt : c < 256) (hw : s.Holds c w)
    (hc : s.commands = encode (.jump c) :: rest) :
    s.RunsTo 129 ({ s with commands := rest }.jumped c (jumpWords w)) := by
  have htaken : step s = _ := (step_of_encode (i := .jump c) hp (decide_eq_true hlt) hc).trans
    (withGenerator_valid (s := { s with commands := rest }) hw rfl _)
  exact State.runsTo_succ htaken (State.runsTo_jumped 127 rfl rfl hw)

/-- COPY from a generator writes its words to the destination and answers (R121). -/
theorem exec_copy_of_holds {d src : Nat} (hd : d < s.nctx) (hw : s.Holds src w) :
    exec (.copy d src) s = .next ((s.setCtx d ⟨w.1, w.2, true⟩).respond (Response.plain .ok)) := by
  obtain ⟨g, hg⟩ : ∃ g, s.ctx? d = some g := ⟨_, List.getElem?_eq_getElem hd⟩
  exact (withContext_some hg _).trans (withGenerator_valid hw rfl _)

end

/-! ## FORK (R84, R207) -/

/-- From `s` to `t` `n` commands were answered OK without a value, and the block is in IDLE with the commands `rest`
left; context `d` holds the words `w`, and every other context is as it was. -/
structure Streamed (n d : Nat) (w : Word × Word) (rest : List Command) (s t : State) : Prop where
  phase     : t.phase = .idle
  commands  : t.commands = rest
  holds     : t.Holds d w
  frame     : ∀ e : Nat, e ≠ d → t.ctx? e = s.ctx? e
  responses : t.responses = s.responses ++ List.replicate n (Response.plain .ok)

section
variable {s t u : State} {c d : Nat} {v w : Word × Word} {rest rest' : List Command}

theorem Streamed.trans {m n : Nat} (h : Streamed m d v rest s t) (h' : Streamed n d w rest' t u) :
    Streamed (m + n) d w rest' s u where
  phase := h'.phase
  commands := h'.commands
  holds := h'.holds
  frame e he := (h'.frame e he).trans (h.frame e he)
  responses := by rw [h'.responses, h.responses, List.append_assoc, List.replicate_append_replicate]

/-- One command that writes `w` to a context there is, and answers. -/
theorem Streamed.of_set (hd : d < s.nctx) (hset : t.ctxs = s.ctxs.set d ⟨w.1, w.2, true⟩) (hp : t.phase = .idle)
    (hc : t.commands = rest) (hr : t.responses = s.responses ++ [Response.plain .ok]) : Streamed 1 d w rest s t where
  phase := hp
  commands := hc
  holds := State.ctx?_self_of_set hset (List.getElem?_eq_getElem hd)
  frame := (State.frame_of_set hset).2
  responses := hr

theorem exists_streamed_copy {src : Nat} (hp : s.phase = .idle) (hd : d < 256) (hsrc : src < 256) (hn : d < s.nctx)
    (hw : s.Holds src w) (hc : s.commands = encode (.copy d src) :: rest) :
    ∃ t : State, s.RunsTo 1 t ∧ Streamed 1 d w rest s t := by
  have hwf : WellFormed (.copy d src) := Bool.and_eq_true_iff.mpr ⟨decide_eq_true hd, decide_eq_true hsrc⟩
  have htaken := (step_of_encode hp hwf hc).trans (exec_copy_of_holds (s := { s with commands := rest }) hn hw)
  exact ⟨_, State.runsTo_succ htaken (State.runsTo_zero _), Streamed.of_set hn rfl rfl rfl rfl⟩

theorem exists_streamed_jump (hp : s.phase = .idle) (hlt : c < 256) (hw : s.Holds c w)
    (hc : s.commands = encode (.jump c) :: rest) :
    ∃ t : State, s.RunsTo 129 t ∧ Streamed 1 c (jumpWords w) rest s t :=
  ⟨_, State.runsTo_jump_command hp hlt hw hc, Streamed.of_set (s.lt_of_ctx?_eq_some hw) rfl rfl rfl rfl⟩

/-- `k` JUMPs presented one after the other jump the context's words `k` times. -/
theorem exists_streamed_jumps (hlt : c < 256) (k : Nat) : ∀ {s : State} {w : Word × Word}, s.phase = .idle →
    s.Holds c w → s.commands = List.replicate k (encode (.jump c)) ++ rest →
    ∃ u : State, s.RunsTo (129 * k) u ∧ Streamed k c (jumpWords^[k] w) rest s u := by
  induction k with
  | zero =>
    intro s w hp hw hc
    exact ⟨s, s.runsTo_zero, hp, hc, hw, fun _ _ => rfl, s.responses.append_nil.symm⟩
  | succ k ih =>
    intro s w hp hw hc
    obtain ⟨t, hfirst, hone⟩ := exists_streamed_jump hp hlt hw hc
    obtain ⟨u, hrun, hu⟩ := ih hone.phase hone.holds hone.commands
    refine ⟨u, ?_, ?_⟩
    · rw [Nat.mul_succ, Nat.add_comm]
      exact State.runsTo_trans hfirst hrun
    · rw [Function.iterate_succ_apply, Nat.add_comm]
      exact hone.trans hu

end

/-- Settles O28: the COPY writes the source's words to the destination, and each JUMP jumps them once. -/
theorem forkMakesTheKthStream : Obligations.ForkMakesTheKthStream := by
  unfold Obligations.ForkMakesTheKthStream
  intro k s d src w rest hp hd hsrc hn hw hc
  rw [assemble, forkExpansion, List.map_cons, List.map_replicate, List.cons_append] at hc
  obtain ⟨t, hcopy, hcopied⟩ := exists_streamed_copy hp hd hsrc hn hw hc
  obtain ⟨u, hrun, hu⟩ := exists_streamed_jumps hd k hcopied.phase hcopied.holds hcopied.commands
  obtain ⟨hphase, hcommands, hholds, hframe, hresponses⟩ := hcopied.trans hu
  refine ⟨u, State.runsTo_trans hcopy hrun, hphase, hcommands, hholds, fun hne => ?_, hframe, ?_⟩
  · exact (hframe src hne.symm).trans hw
  · rw [hresponses, Nat.add_comm]
    rfl

end Sys2Proof.Machine

/-! Proofs of the family 40_mix_splitmix64.md: the MIX unit and its corner cases, and the two commands that use no
context, MIX and RDMAX. -/

namespace Sys2Proof

/-! ## Operations that use no field of the header (R76, R77) -/

/-- A row whose mask tests every bit selects its pattern alone. -/
theorem OpcodeRow.selects_iff_eq_pattern {row : OpcodeRow} {h : Header} (hmask : row.mask = BitVec.allOnes 32) :
    row.selects h = true ↔ h = row.pattern := by
  rw [OpcodeRow.selects, beq_iff_eq, hmask, BitVec.and_allOnes]

/-- A header with an operation's opcode is legal for no other operation, so the decoder refuses it unless it is legal for
that one. -/
theorem exists_decode_eq_error_of_not_fits {op : Opcode} {c : Command} (hcode : opcodeField c.h = op.row.code)
    (hop : ¬ op.Fits c.h) : ∃ e, decode c = .error e := by
  refine decode_eq_error_iff.mpr fun op' hop' => hop ?_
  have hsome : some op' = some op :=
    (Opcode.ofNumber_eq_some_iff.mpr hop'.opcode).symm.trans (Opcode.ofNumber_eq_some_iff.mpr hcode)
  exact Option.some.inj hsome ▸ hop'

end Sys2Proof

namespace Sys2Proof.Machine

/-! ## The MIX unit (R101 to R103) -/

/-- Settles O4: the model's primitives are the library's operations. -/
theorem mixIsFourLines : Obligations.MixIsFourLines := by
  unfold Obligations.MixIsFourLines
  intro n
  simp only [mixWord, mixIncrement, mixMul1, mixMul2, add64_eq, mul64_eq, xor64_eq, shr64_eq]

/-- Settles O5: each row is computed. -/
theorem mixCornerCases : Obligations.MixCornerCases := by
  unfold Obligations.MixCornerCases
  decide

/-! ## MIX and RDMAX (R100, R170) -/

section
variable (s : State)

theorem exec_mix (n : Word) : exec (.mix n) s = .next (s.respond (Response.value (mixWord n))) := rfl

theorem exec_rdmax : exec .rdmax s = .next (s.respond (Response.value randMax)) := rfl

/-- Where the row tests every bit of the header, a command with the operation's opcode is illegal unless its header is
the row's pattern. -/
theorem runCommand_of_full_mask {op : Opcode} {c : Command} (hmask : op.row.mask = BitVec.allOnes 32)
    (hcode : opcodeField c.h = op.row.code) :
    runCommand c s = if c.h ≠ op.row.pattern then raise .errIllegal s else exec (op.instr c) s := by
  have hfits : op.Fits c.h ↔ c.h = op.row.pattern :=
    Opcode.selects_iff.symm.trans (OpcodeRow.selects_iff_eq_pattern hmask)
  by_cases h : c.h = op.row.pattern
  · rw [if_neg (not_not.mpr h), runCommand_of_decode (decode_of_fits (hfits.mpr h))]
  · obtain ⟨e, he⟩ := exists_decode_eq_error_of_not_fits hcode (mt hfits.mp h)
    rw [if_pos h, runCommand_of_error he]

end

/-- Settles O6: both only respond. -/
theorem pureCommandsComplete : Obligations.PureCommandsComplete := by
  unfold Obligations.PureCommandsComplete
  exact fun s => ⟨exec_mix s, exec_rdmax s⟩

/-- Settles O7: the rows of MIX and RDMAX test every bit of the header, so `runCommand_of_full_mask` gives both answers. -/
theorem pureCommands : Obligations.PureCommands := by
  unfold Obligations.PureCommands
  exact fun c s => ⟨fun h => runCommand_of_full_mask (op := .mix) s rfl h,
    fun h => runCommand_of_full_mask (op := .rdmax) s rfl h⟩

end Sys2Proof.Machine

/-! Proofs of the family 41_new_construction.md: the entropy draw, construction by NEW, and the stream that a
seed fixes. -/

namespace Sys2Proof.Machine

/-! ## The entropy draw (R112) -/

/-- From `s` to `t` one draw was taken, of the value `e`: the scripted one, or the free one if none is scripted
(log entry 5). -/
def Drew (e : Word) (s t : State) : Prop :=
  (s.entropy = e :: t.entropy ∧ t.draws = s.draws) ∨
    (s.entropy = [] ∧ t.entropy = [] ∧ t.draws = s.draws + 1 ∧ e = Config.entropy s.draws)

section
variable {s : State} {c : Nat} {seed : Option Word} {a : Word}

theorem State.drew_drawEntropy (s : State) : Drew s.drawEntropy.1 s s.drawEntropy.2 := by
  obtain ⟨e, rest, he, hd⟩ | ⟨he, hd⟩ := s.drawEntropy_cases
  · rw [hd]
    exact .inl ⟨he, rfl⟩
  · rw [hd]
    exact .inr ⟨he, he, rfl, rfl⟩

/-- A draw writes nothing but the entropy port and its counter. -/
theorem State.drawEntropy_eq (s : State) :
    s.drawEntropy.2 = { s with entropy := s.drawEntropy.2.entropy, draws := s.drawEntropy.2.draws } := by
  obtain ⟨_, _, -, hd⟩ | ⟨-, hd⟩ := s.drawEntropy_cases <;> rw [hd]

theorem State.drawEntropy_of_nil (he : s.entropy = []) :
    s.drawEntropy = (Config.entropy s.draws, { s with draws := s.draws + 1 }) := by
  rw [State.drawEntropy, he]

theorem effectiveSeed_of_ne (ha : a ≠ 0#64) : effectiveSeed (some a) s = (a, s) := if_pos ha

theorem effectiveSeed_of_unusable (hseed : seed = none ∨ seed = some 0#64) : effectiveSeed seed s = s.drawEntropy := by
  obtain rfl | rfl := hseed <;> rfl

/-! ## NEW, executed (R111, R113) -/

theorem exec_new_of_le (hc : s.nctx ≤ c) : exec (.new c seed) s = raise .errReceiver s :=
  withContext_none ((s.ctx?_eq_none_iff c).mpr hc) _

/-- On a context that exists NEW constructs from the effective seed, whatever the context held, and answers OK. -/
theorem exec_new_of_lt (hc : c < s.nctx) : exec (.new c seed) s =
    .next (((effectiveSeed seed s).2.setCtx c (seeded (effectiveSeed seed s).1)).respond (Response.plain .ok)) :=
  withContext_some (List.getElem?_eq_getElem hc) _

theorem exec_new_of_ne (hc : c < s.nctx) (ha : a ≠ 0#64) :
    exec (.new c (some a)) s = .next ((s.setCtx c (seeded a)).respond (Response.plain .ok)) := by
  rw [exec_new_of_lt hc, effectiveSeed_of_ne ha]

theorem exec_new_of_unusable (hc : c < s.nctx) (hseed : seed = none ∨ seed = some 0#64) : exec (.new c seed) s =
    .next ((s.drawEntropy.2.setCtx c (seeded s.drawEntropy.1)).respond (Response.plain .ok)) := by
  rw [exec_new_of_lt hc, effectiveSeed_of_unusable hseed]

/-! ## NEW, from its header (R111, R113) -/

/-- Of the headers with the opcode of NEW, those are legal whose bits 15 to 1 are 0. -/
theorem fits_new_iff {h : Header} (hcode : opcodeField h = 1) :
    Opcode.new.Fits h ↔ ¬ (srcField h ≠ 0 ∨ zeroField h ≠ 0) := by
  rw [not_or, not_not, not_not]
  exact ⟨fun hfits => ⟨hfits.srcField_eq_zero nofun, hfits.zero⟩,
    fun ⟨hsrc, hzero⟩ => ⟨hcode, fun _ => ⟨nofun, nofun⟩, fun hne => absurd hsrc hne, hzero, fun _ => rfl⟩⟩

/-- The seed operand of a command cannot be used exactly when it is omitted or 0 (R111). -/
theorem unusable_seedOperand {sp : Bool} (h : ¬ (sp = true ∧ a ≠ 0#64)) :
    (if sp then some a else none) = none ∨ (if sp then some a else none) = some 0#64 := by
  cases sp with
  | false => exact .inl rfl
  | true => exact .inr (congrArg some (not_not.mp fun ha => h ⟨rfl, ha⟩))

end

/-- Settles O15: the effective seed is the seed given (`exec_new_of_ne`). -/
theorem newFromSeedCompletes : Obligations.NewFromSeedCompletes := by
  unfold Obligations.NewFromSeedCompletes
  exact fun s c a hc ha => exec_new_of_ne hc ha

/-- Settles O16: the effective seed is the draw, which is scripted or free. -/
theorem newFromDrawCompletes : Obligations.NewFromDrawCompletes := by
  unfold Obligations.NewFromDrawCompletes
  refine fun s c seed hc hseed => ⟨fun e rest he => exec_new_of_samples ⟨hc, hseed⟩ he, fun he => ?_⟩
  rw [exec_new_of_unusable hc hseed, State.drawEntropy_of_nil he]
  rfl

/-- Settles O17: a header that is legal for NEW (`fits_new_iff`) runs as NEW, on a context that exists or not, from the
seed or from a draw. -/
theorem newCommand : Obligations.NewCommand := by
  unfold Obligations.NewCommand
  intro c s hcode
  refine ⟨fun hillegal => ?_, fun hlegal => ?_⟩
  · obtain ⟨e, he⟩ := exists_decode_eq_error_of_not_fits (op := .new) hcode fun hfits =>
      (fits_new_iff hcode).mp hfits hillegal
    exact runCommand_of_error he
  · have hrun : runCommand c s = exec (.new (ctxField c.h) (if spBit c.h then some c.a else none)) s :=
      runCommand_of_decode (decode_of_fits ((fits_new_iff hcode).mpr hlegal))
    rw [hrun]
    refine ⟨exec_new_of_le, fun hc ⟨hsp, ha⟩ => ?_, fun hc hseed => ?_⟩
    · rw [if_pos hsp]
      exact exec_new_of_ne hc ha
    · refine ⟨s.drawEntropy.1, s.drawEntropy.2.entropy, s.drawEntropy.2.draws, ?_, ?_⟩
      · exact s.drew_drawEntropy.imp (fun ⟨he, _⟩ => he) fun ⟨he, he', _⟩ => ⟨he, he'⟩
      · rw [exec_new_of_unusable hc (unusable_seedOperand hseed), s.drawEntropy_eq]
        rfl

/-! ## Entropy is sampled by NEW alone (R63, R112, R185) -/

section
variable {s t : State} {i : Instr}

/-- From `s` to `t` instruction `i`, a NEW that samples, took one draw and constructed from it. -/
def Sampled (i : Instr) (s t : State) : Prop :=
  ∃ (d : Nat) (seed : Option Word) (e : Word), i = .new d seed ∧ s.Samples i ∧ Drew e s t ∧ t.Holds d (mixWord e, e)

/-- An instruction that runs samples no entropy, or is a NEW whose effective seed is the draw. -/
theorem Ran.entropy (h : Ran i s t) : SameEntropy s t ∨ Sampled i s t := by
  cases i with
  | new c seed =>
    obtain ⟨hc, rfl⟩ := h
    obtain ⟨a, -, -, hs⟩ | ⟨hseed, hs⟩ := effectiveSeed_cases seed s
    · rw [hs]
      exact .inl ⟨rfl, rfl⟩
    · rw [hs]
      have hc' : c < s.drawEntropy.2.ctxs.length := by rw [State.drawEntropy_ctxs]; exact hc
      exact .inr ⟨c, seed, s.drawEntropy.1, rfl, ⟨hc, hseed⟩, s.drew_drawEntropy, State.ctx?_setCtx_self _ _ hc'⟩
  | copy d src =>
    obtain ⟨-, g, -, -, rfl⟩ := h
    exact .inl ⟨rfl, rfl⟩
  | jump c =>
    obtain ⟨g, -, -, rfl⟩ := h
    exact .inl ⟨rfl, rfl⟩
  | next c =>
    obtain ⟨g, -, -, rfl⟩ := h
    exact .inl ⟨rfl, rfl⟩
  | range c lo hi => obtain ⟨g, -, -, ⟨-, rfl⟩ | ⟨-, rfl⟩ | ⟨-, p, -, rfl⟩⟩ := h <;> exact .inl ⟨rfl, rfl⟩
  | mix n =>
    obtain rfl := h
    exact .inl ⟨rfl, rfl⟩
  | rdmax =>
    obtain rfl := h
    exact .inl ⟨rfl, rfl⟩

theorem raise_entropy {st : Status} (h : raise st s = .next t) : SameEntropy s t := by
  cases h
  exact ⟨rfl, rfl⟩

theorem exec_entropy (h : exec i s = .next t) : SameEntropy s t ∨ Sampled i s t := by
  obtain ⟨-, he⟩ | ⟨-, he⟩ | ⟨t', hr, he⟩ := exec_cases i s
  · exact .inl (raise_entropy (he.symm.trans h))
  · exact .inl (raise_entropy (he.symm.trans h))
  · cases he.symm.trans h
    exact hr.entropy

/-- A pass samples nothing: it writes what `SamePass.step` says every pass writes. -/
theorem pass_entropy (hb : s.phase ≠ .idle) (h : step s = .next t) : SameEntropy s t := by
  obtain ⟨_, g, new, -, hw, -⟩ := (SamePass.refl s).step hb h
  exact ⟨hw.entropy, hw.draws⟩

end

/-- Settles O58: an illegal header and an error sample nothing, an instruction that runs what `Ran.entropy` says, and a
pass or a wait nothing. -/
theorem entropyIsSampledByNewOnly : Obligations.EntropyIsSampledByNewOnly := by
  unfold Obligations.EntropyIsSampledByNewOnly
  refine ⟨fun c s t h => ?_, fun s t hidle h => ?_⟩
  · obtain ⟨_, -, hr⟩ | ⟨i, hi, hr⟩ := runCommand_cases c s
    · exact .inl (raise_entropy (hr.symm.trans h))
    · refine (exec_entropy (hr.symm.trans h)).imp_right ?_
      rintro ⟨d, seed, e, rfl, hs, hdrew, hholds⟩
      refine ⟨d, seed, hi, hs, ?_⟩
      obtain ⟨he, hn⟩ | ⟨he, ht, hn, rfl⟩ := hdrew
      · exact .inl ⟨e, he, hn, hholds⟩
      · exact .inr ⟨he, ht, hn, hholds⟩
  · by_cases hp : s.phase = .idle
    · cases (step_of_no_command hp (hidle.resolve_left (not_not.mpr hp))).symm.trans h
      exact ⟨rfl, rfl⟩
    · exact pass_entropy hp h

/-! ## The stream of a context (R58, R130) -/

/-- The responses to `k` NEXT commands on a context that holds the words `w`. -/
def streamResponses (k : Nat) (w : Word × Word) : List Response :=
  (List.range k).map fun j => Response.value (stepOutput (stepMap^[j] w))

theorem streamResponses_succ (k : Nat) (w : Word × Word) :
    streamResponses (k + 1) w = Response.value (stepOutput w) :: streamResponses k (stepMap w) := by
  rw [streamResponses, List.range_succ_eq_map, List.map_cons, List.map_map]
  rfl

/-- From `s` to `t` `k` NEXT commands on context `c` were answered with its stream from the words `w`, and the block is
in IDLE with the commands `rest` left; every other context is as it was. -/
structure DrewStream (k c : Nat) (w : Word × Word) (rest : List Command) (s t : State) : Prop where
  phase     : t.phase = .idle
  commands  : t.commands = rest
  holds     : t.Holds c (stepMap^[k] w)
  frame     : ∀ d : Nat, d ≠ c → t.ctx? d = s.ctx? d
  responses : t.responses = s.responses ++ streamResponses k w

section
variable {c : Nat} {rest : List Command}

/-- NEW with a usable seed presented to an idle block: whatever the context held, it holds (MIX(seed), seed) then. -/
theorem exists_step_new {s : State} {a : Word} (hlt : c < 256) (hn : c < s.nctx) (ha : a ≠ 0#64) (hp : s.phase = .idle)
    (hc : s.commands = encode (.new c (some a)) :: rest) :
    ∃ t : State, step s = .next t ∧ t.phase = .idle ∧ t.commands = rest ∧ t.Holds c (mixWord a, a) ∧
      t.responses = s.responses ++ [Response.plain .ok] :=
  ⟨_, (step_of_encode (i := .new c (some a)) hp (decide_eq_true hlt) hc).trans
      (exec_new_of_ne (s := { s with commands := rest }) hn ha),
    rfl, rfl, State.ctx?_setCtx_self _ _ hn, rfl⟩

/-- NEXT presented to an idle block: one output, and the context one step on. -/
theorem exists_step_next {s : State} {w : Word × Word} (hlt : c < 256) (hp : s.phase = .idle) (hw : s.Holds c w)
    (hc : s.commands = encode (.next c) :: rest) :
    ∃ t : State, step s = .next t ∧ t.phase = .idle ∧ t.commands = rest ∧ t.Holds c (stepMap w) ∧
      (∀ d : Nat, d ≠ c → t.ctx? d = s.ctx? d) ∧ t.responses = s.responses ++ [Response.value (stepOutput w)] :=
  ⟨_, (step_of_encode (i := .next c) hp (decide_eq_true hlt) hc).trans
      (exec_next_of_holds (s := { s with commands := rest }) hw),
    rfl, rfl, State.ctx?_setCtx_self _ _ (s.lt_of_ctx?_eq_some hw), fun _ hd => State.ctx?_setCtx_other _ _ hd, rfl⟩

theorem exists_drewStream (hlt : c < 256) (k : Nat) : ∀ {s : State} {w : Word × Word}, s.phase = .idle →
    s.Holds c w → s.commands = List.replicate k (encode (.next c)) ++ rest →
    ∃ u : State, s.RunsTo k u ∧ DrewStream k c w rest s u := by
  induction k with
  | zero => exact fun {s w} hp hw hc => ⟨s, s.runsTo_zero, hp, hc, hw, fun _ _ => rfl, s.responses.append_nil.symm⟩
  | succ k ih =>
    intro s w hp hw hc
    obtain ⟨t, ht, hpt, hct, hwt, hframe, hresponses⟩ := exists_step_next hlt hp hw hc
    obtain ⟨u, hrun, hu⟩ := ih hpt hwt hct
    refine ⟨u, State.runsTo_succ ht hrun, hu.phase, hu.commands, hu.holds,
      fun d hd => (hu.frame d hd).trans (hframe d hd), ?_⟩
    rw [hu.responses, hresponses, streamResponses_succ, List.append_assoc, List.singleton_append]

end

/-- Settles O18: the NEW leaves the words (MIX(seed), seed), whatever the state was, and the NEXTs draw their stream. -/
theorem seedFixesTheStream : Obligations.SeedFixesTheStream := by
  unfold Obligations.SeedFixesTheStream
  intro k s c a rest hp hlt hn ha hc
  obtain ⟨t, ht, hpt, hct, hwt, hresponses⟩ := exists_step_new hlt hn ha hp hc
  obtain ⟨u, hrun, hu⟩ := exists_drewStream hlt k hpt hwt hct
  refine ⟨u, State.runsTo_succ ht hrun, hu.commands, ?_⟩
  rw [hu.responses, hresponses, List.append_assoc]
  rfl

end Sys2Proof.Machine

/-! Proofs of the family 42_copy.md: COPY executed and from its header, and the stream that a copy shares with its
source. -/

namespace Sys2Proof.Machine

/-! ## COPY, executed (R121) -/

section
variable {s t : State} {d src : Nat}

theorem exec_copy_of_le (hd : s.nctx ≤ d) : exec (.copy d src) s = raise .errReceiver s :=
  withContext_none ((s.ctx?_eq_none_iff d).mpr hd) _

/-- Onto a context that exists, whatever it holds, COPY goes on with its source operand. -/
theorem exec_copy_of_lt (hd : d < s.nctx) : exec (.copy d src) s =
    withGenerator src s fun g =>
      .next ((s.setCtx d { s0 := g.s0, s1 := g.s1, valid := true }).respond (Response.plain .ok)) :=
  withContext_some (List.getElem?_eq_getElem hd) _

/-! ## COPY, from its header (R121) -/

/-- Of the headers with the opcode of COPY, those are legal whose bits 7 to 0 are 0. -/
theorem fits_copy_iff {h : Header} (hcode : opcodeField h = 2) :
    Opcode.copy.Fits h ↔ ¬ (zeroField h ≠ 0 ∨ spBit h = true) := by
  rw [not_or, not_not]
  exact ⟨fun hfits => ⟨hfits.zero, fun hsp => nomatch hfits.sp hsp⟩,
    fun ⟨hzero, hsp⟩ => ⟨hcode, fun _ => ⟨nofun, nofun⟩, fun _ => rfl, hzero, fun h => absurd h hsp⟩⟩

/-! ## The stream of a copy (R122, R123) -/

/-- A context that holds the words `w` still does when `w` is written as a generator to any context. -/
theorem State.Holds.setCtx {w : Word × Word} (hw : s.Holds src w) : (s.setCtx d ⟨w.1, w.2, true⟩).Holds src w := by
  by_cases hne : src = d
  · subst hne
    exact s.ctx?_setCtx_self _ (s.lt_of_ctx?_eq_some hw)
  · exact (s.ctx?_setCtx_other _ hne).trans hw

/-- Writing to a context what it holds changes no context. -/
theorem State.setCtx_ctxs_of_ctx? {g : Context} (hg : s.ctx? d = some g) : (s.setCtx d g).ctxs = s.ctxs := by
  obtain ⟨hd, rfl⟩ := List.getElem?_eq_some_iff.mp hg
  exact List.set_getElem_self hd

/-- After COPY both contexts hold the source's words; a copy onto itself changes no context (R122, R123). -/
theorem exists_exec_copy {w : Word × Word} (hd : d < s.nctx) (hw : s.Holds src w) :
    ∃ t : State, exec (.copy d src) s = .next t ∧ t.Holds d w ∧ t.Holds src w ∧ (d = src → t.ctxs = s.ctxs) :=
  ⟨_, exec_copy_of_holds hd hw, s.ctx?_setCtx_self _ hd, State.Holds.setCtx hw,
    fun h => State.setCtx_ctxs_of_ctx? (h ▸ hw)⟩

/-- A complete instruction keeps the words of every context that it does not write (R33). -/
theorem State.Completes.holds {i : Instr} {w : Word × Word} (h : s.Completes i t) (hi : writtenContext i ≠ some d)
    (hw : s.Holds d w) : t.Holds d w := by
  obtain ⟨_, _, hended, -, -⟩ := h.local
  exact (hended.frame.2 d hi).trans hw

end

/-- Settles O19: the command is executed by `exec_copy_of_holds`. -/
theorem copyCompletes : Obligations.CopyCompletes := by
  unfold Obligations.CopyCompletes
  exact fun s d src w hd hw => exec_copy_of_holds hd hw

/-- Settles O20: a header that is legal for COPY (`fits_copy_iff`) runs as COPY, whose operands are tested in the order of
R121. -/
theorem copyCommand : Obligations.CopyCommand := by
  unfold Obligations.CopyCommand
  intro c s hcode
  by_cases hillegal : zeroField c.h ≠ 0 ∨ spBit c.h = true
  · rw [if_pos hillegal]
    obtain ⟨e, he⟩ := exists_decode_eq_error_of_not_fits (op := .copy) hcode fun hfits =>
      (fits_copy_iff hcode).mp hfits hillegal
    exact runCommand_of_error he
  · have hrun : runCommand c s = exec (.copy (ctxField c.h) (srcField c.h)) s :=
      runCommand_of_decode (decode_of_fits ((fits_copy_iff hcode).mpr hillegal))
    rw [if_neg hillegal, hrun]
    by_cases hd : s.nctx ≤ ctxField c.h
    · rw [if_pos hd]
      exact exec_copy_of_le hd
    · rw [if_neg hd, exec_copy_of_lt (Nat.lt_of_not_le hd)]
      cases hg : s.ctx? (srcField c.h) with
      | none => exact withGenerator_none hg _
      | some g =>
        by_cases hv : g.valid = false
        · exact (withGenerator_unseeded hg hv _).trans (if_pos hv).symm
        · exact (withGenerator_valid hg (Bool.eq_true_of_not_eq_false hv) _).trans (if_neg hv).symm

/-- Settles O21: both contexts hold the source's words after the copy (`exists_exec_copy`), so a NEXT on either answers their
output, and a complete instruction, NEXT among them, keeps the contexts it does not write (`State.Completes.holds`). -/
theorem copyIsTheSameStream : Obligations.CopyIsTheSameStream := by
  unfold Obligations.CopyIsTheSameStream
  intro s d src w hd hw
  obtain ⟨t, ht, htd, hts, hself⟩ := exists_exec_copy hd hw
  have hu := exec_next_of_holds htd
  have hv := exec_next_of_holds hts
  refine ⟨t, _, _, ht, htd, hts, hu, hv, rfl, fun hne => ⟨?_, ?_⟩, hself, fun _ i x hx =>
    ⟨fun hi => hx.holds hi hts, fun hi => hx.holds hi htd⟩⟩
  · exact (State.completes_of_idle hu rfl).holds (fun h => hne (Option.some.inj h)) hts
  · exact (State.completes_of_idle hv rfl).holds (fun h => hne (Option.some.inj h).symm) htd

end Sys2Proof.Machine

/-! Proofs of the family 43_next_step.md: the STEP unit bit by bit and as a linear bijection, NEXT executed and from its
header, and the stream that NEXTs draw. -/

namespace Sys2Proof.Machine

/-! ## The STEP unit (R131, R133, R134) -/

section
variable (s0 s1 : Word)

theorem stepWords_s0 : (stepWords s0 s1).s0 = rotl64 s0 55 ^^^ (s1 ^^^ s0) ^^^ shl64 (s1 ^^^ s0) 14 := rfl

theorem stepWords_s1 : (stepWords s0 s1).s1 = rotl64 (s1 ^^^ s0) 36 := rfl

/-- Each bit of the first new word, from the old bits; the shift brings in zeros (R133). -/
theorem stepWords_s0_getLsbD {i : Nat} (hi : i < 64) :
    (stepWords s0 s1).s0.getLsbD i = (s0.getLsbD ((i + 9) % 64) ^^ (s0.getLsbD i ^^ s1.getLsbD i) ^^
      (if 14 ≤ i then s0.getLsbD (i - 14) ^^ s1.getLsbD (i - 14) else false)) := by
  simp only [stepWords_s0, BitVec.getLsbD_xor, rotl64_getLsbD _ _ hi, shl64_getLsbD _ _ hi,
    Bool.xor_comm (s1.getLsbD _)]
  by_cases h : 14 ≤ i <;> simp [h]

/-- Each bit of the second new word, from the old bits (R133). -/
theorem stepWords_s1_getLsbD {i : Nat} (hi : i < 64) :
    (stepWords s0 s1).s1.getLsbD i = (s0.getLsbD ((i + 28) % 64) ^^ s1.getLsbD ((i + 28) % 64)) := by
  rw [stepWords_s1, rotl64_getLsbD _ _ hi, BitVec.getLsbD_xor, Bool.xor_comm]

end

/-- Settles O8: the model's primitives are the library's operations. -/
theorem stepFormula : Obligations.StepFormula := by
  unfold Obligations.StepFormula
  intro s0 s1
  simp only [stepWords, add64_eq, xor64_eq, shl64_eq, rotl64_eq]

/-- Settles O11: each row is computed. -/
theorem stepCornerCases : Obligations.StepCornerCases := by
  unfold Obligations.StepCornerCases
  decide

/-! ## The step map is linear over GF(2) and a bijection (R133, R135) -/

theorem rotl64_xor (x y : Word) {n : Nat} (h : ShiftAmount n) :
    rotl64 (x ^^^ y) n h = rotl64 x n h ^^^ rotl64 y n h := by
  refine BitVec.eq_of_getLsbD_eq fun i hi => ?_
  simp only [BitVec.getLsbD_xor, rotl64_getLsbD _ _ hi]

theorem shl64_xor (x y : Word) {n : Nat} (h : ShiftAmount n) : shl64 (x ^^^ y) n h = shl64 x n h ^^^ shl64 y n h :=
  BitVec.shiftLeft_xor_distrib x y n

theorem xorPair_eq_zero_iff {a b : Word × Word} : xorPair a b = (0#64, 0#64) ↔ a = b := by
  rw [xorPair, Prod.mk.injEq, BitVec.xor_eq_zero_iff, BitVec.xor_eq_zero_iff, Prod.ext_iff]

section
variable (a0 a1 b0 b1 : Word)

theorem xor_xor_xor_comm : (a1 ^^^ b1) ^^^ (a0 ^^^ b0) = (a1 ^^^ a0) ^^^ (b1 ^^^ b0) := by ac_rfl

theorem stepWords_s0_xor :
    (stepWords (a0 ^^^ b0) (a1 ^^^ b1)).s0 = (stepWords a0 a1).s0 ^^^ (stepWords b0 b1).s0 := by
  rw [stepWords_s0, stepWords_s0, stepWords_s0, xor_xor_xor_comm, rotl64_xor, shl64_xor]
  ac_rfl

theorem stepWords_s1_xor :
    (stepWords (a0 ^^^ b0) (a1 ^^^ b1)).s1 = (stepWords a0 a1).s1 ^^^ (stepWords b0 b1).s1 := by
  rw [stepWords_s1, stepWords_s1, stepWords_s1, xor_xor_xor_comm, rotl64_xor]

end

/-- The step map keeps exclusive ors: rotations, shifts and exclusive ors do. -/
theorem stepMap_xorPair (a b : Word × Word) : stepMap (xorPair a b) = xorPair (stepMap a) (stepMap b) :=
  Prod.ext (stepWords_s0_xor a.1 a.2 b.1 b.2) (stepWords_s1_xor a.1 a.2 b.1 b.2)

theorem stepMap_zero : stepMap (0#64, 0#64) = (0#64, 0#64) := by decide

theorem stepMap_eq_zero_iff {w : Word × Word} : stepMap w = (0#64, 0#64) ↔ w = (0#64, 0#64) := by
  refine ⟨fun h => not_not.mp fun hw => stepMap_ne_zero hw h, fun h => ?_⟩
  rw [h, stepMap_zero]

/-- Two states with the same step differ by a state that steps to zero, which is the zero state alone. -/
theorem stepMap_injective : Function.Injective stepMap := by
  intro a b h
  rw [← xorPair_eq_zero_iff, ← stepMap_eq_zero_iff, stepMap_xorPair, xorPair_eq_zero_iff]
  exact h

/-- Settles O9: the bits are those of `stepWords_s0_getLsbD` and `stepWords_s1_getLsbD`, and the map is linear
(`stepMap_xorPair`); the output of (1, 0) and (0, 1) carries: it is 1 for each of them, and 2 for their exclusive or. -/
theorem stepBitByBit : Obligations.StepBitByBit := by
  unfold Obligations.StepBitByBit
  exact ⟨fun s0 s1 i hi => ⟨stepWords_s0_getLsbD s0 s1 hi, stepWords_s1_getLsbD s0 s1 hi⟩, stepMap_xorPair,
    (1#64, 0#64), (0#64, 1#64), by decide⟩

/-- Settles O10: an injective map of the finitely many states is a bijection. -/
theorem stepMapIsBijective : Obligations.StepMapIsBijective := by
  unfold Obligations.StepMapIsBijective
  exact ⟨Finite.injective_iff_bijective.mp stepMap_injective, fun _ => stepMap_eq_zero_iff⟩

/-! ## Operations whose header has no free field but the context (R76, R78): JUMP, NEXT and RANGE -/

/-- Of the headers with such an operation's opcode, those are legal whose bits 15 to 0 are 0. -/
theorem fits_iff_of_ctx_mask {op : Opcode} {h : Header} (hmask : op.row.mask = 0xFF00FFFF#32)
    (hcode : opcodeField h = op.row.code) :
    op.Fits h ↔ ¬ (srcField h ≠ 0 ∨ zeroField h ≠ 0 ∨ spBit h = true) := by
  obtain ⟨hnew, hcopy, hctx⟩ : op ≠ .new ∧ op ≠ .copy ∧ op ≠ .mix ∧ op ≠ .rdmax := by
    revert hmask
    cases op <;> decide
  rw [not_or, not_or, not_not, not_not]
  exact ⟨fun hfits => ⟨hfits.srcField_eq_zero hcopy, hfits.zero, fun hsp => hnew (hfits.sp hsp)⟩,
    fun ⟨hsrc, hzero, hsp⟩ => ⟨hcode, fun _ => hctx, fun hne => absurd hsrc hne, hzero, fun h => absurd h hsp⟩⟩

/-- A command with such an operation's opcode is illegal, or executes that operation. -/
theorem runCommand_of_ctx_mask {op : Opcode} {c : Command} (s : State) (hmask : op.row.mask = 0xFF00FFFF#32)
    (hcode : opcodeField c.h = op.row.code) :
    runCommand c s = if srcField c.h ≠ 0 ∨ zeroField c.h ≠ 0 ∨ spBit c.h = true then raise .errIllegal s
      else exec (op.instr c) s := by
  have hfits := fits_iff_of_ctx_mask hmask hcode
  split_ifs with hillegal
  · obtain ⟨e, he⟩ := exists_decode_eq_error_of_not_fits hcode fun h => hfits.mp h hillegal
    exact runCommand_of_error he
  · exact runCommand_of_decode (decode_of_fits (hfits.mpr hillegal))

/-! ## NEXT (R132) -/

/-- A context that is read, and whose flag is set, holds its words. -/
theorem State.holds_of_valid {s : State} {c : Nat} {g : Context} (hg : s.ctx? c = some g) (hv : g.valid = true) :
    s.Holds c (g.s0, g.s1) := by
  rw [State.Holds, hg, ← hv]

/-- Settles O12: the command is executed by `exec_next_of_holds`. -/
theorem nextCompletes : Obligations.NextCompletes := by
  unfold Obligations.NextCompletes
  exact fun s c w hw => exec_next_of_holds hw

/-- Settles O13: a legal header runs as NEXT (`runCommand_of_ctx_mask`), which tests its context before it steps it. -/
theorem nextCommand : Obligations.NextCommand := by
  unfold Obligations.NextCommand
  intro c s hcode
  have hrun := runCommand_of_ctx_mask (op := .next) s rfl hcode
  refine ⟨fun hillegal => hrun.trans (if_pos hillegal), fun hlegal => ?_⟩
  rw [hrun, if_neg hlegal]
  refine ⟨fun hg => withGenerator_none hg _, fun g hg hv => withGenerator_unseeded hg hv _,
    fun g hg hv => ⟨Config.releasedScratch s.releases, s.releases + 1, ?_⟩⟩
  exact nextCompletes s _ (g.s0, g.s1) (State.holds_of_valid hg hv)

/-- Settles O14: `exists_drewStream`, by induction on the number of NEXTs. -/
theorem nextsDrawTheStream : Obligations.NextsDrawTheStream := by
  unfold Obligations.NextsDrawTheStream
  intro k s c w rest hp hlt hw hc
  obtain ⟨u, hrun, hu⟩ := exists_drewStream hlt k hp hw hc
  exact ⟨u, hrun, hu.phase, hu.commands, hu.holds, hu.responses, hu.frame⟩

end Sys2Proof.Machine

/-! Proofs of the family 44_jump.md: the bits the jump looks at, its closed form, JUMP executed and from its header, and the
jump as 2^64 steps, from which its linearity follows. -/

namespace Sys2Proof.Machine

/-! ## The loop of a jump (R141, R142, R143) -/

/-- Settles O22: the bits of the two constants are counted and read off. -/
theorem jumpBitCounts : Obligations.JumpBitCounts := by
  unfold Obligations.JumpBitCounts
  decide

/-- The loop accumulates the states whose bit is 1, one iteration after the other. -/
theorem jumpLoop_eq_foldl (n : Nat) (acc w : Word × Word) :
    jumpLoop n 0 acc w = ((List.range n).filter jumpBit).foldl (fun a k => xorPair a (stepMap^[k] w)) acc := by
  induction n with
  | zero => rfl
  | succ n ih =>
    rw [jumpLoop_last, ih, Nat.zero_add, List.range_succ, List.filter_append, List.foldl_append]
    cases hbit : jumpBit n <;> simp [accumulate, hbit, xorPair, xor64_eq]

/-- Settles O23: `jumpLoop_eq_foldl` for 128 iterations from accumulators 0. -/
theorem jumpClosedForm : Obligations.JumpClosedForm := by
  unfold Obligations.JumpClosedForm
  exact jumpLoop_eq_foldl 128 (0#64, 0#64)

/-! ## JUMP (R142, R144) -/

/-- A running JUMP with more than `n` passes left is in JUMPING still after `n` of them, its index and its words `n` on; no
response was presented and no command taken. -/
theorem State.exists_jumping_after (n : Nat) : ∀ {s : State} {w : Word × Word}, s.phase = .jumping →
    s.scratch.iter.toNat + n ≤ 127 → s.Holds s.scratch.ctx w →
    ∃ v : State, s.RunsTo n v ∧ v.phase = .jumping ∧ v.scratch.iter.toNat = s.scratch.iter.toNat + n ∧
      v.Holds s.scratch.ctx (stepMap^[n] w) ∧ v.responses = s.responses ∧ v.commands = s.commands := by
  induction n with
  | zero => exact fun {s w} hp _ hw => ⟨s, s.runsTo_zero, hp, rfl, hw, rfl, rfl⟩
  | succ n ih =>
    intro s w hp hn hw
    have hi : s.scratch.iter ≠ 127#7 := by bv_omega
    have hiter : (s.passed w).scratch.iter.toNat = s.scratch.iter.toNat + 1 :=
      show (s.scratch.iter + 1#7).toNat = _ by bv_omega
    obtain ⟨v, hrun, hphase, hv, hrest⟩ := ih (s := s.passed w) hp (by rw [hiter]; omega)
      (s.ctx?_setCtx_self _ (s.lt_of_ctx?_eq_some hw))
    refine ⟨v, State.runsTo_succ ((step_of_jumping hp).trans (jumpPass_not_last hw hi)) hrun, hphase, ?_, hrest⟩
    rw [hv, hiter, Nat.add_right_comm, Nat.add_assoc]

section
variable {s : State} {c : Nat} {w : Word × Word}

/-- The state JUMPING(0) of a JUMP on context `c` (R144). -/
def State.startJump (s : State) (c : Nat) : State :=
  { s with phase := .jumping, scratch := { s.scratch with ctx := c, acc0 := 0#64, acc1 := 0#64, iter := 0#7 } }

theorem exec_jump_of_holds (hw : s.Holds c w) : exec (.jump c) s = .next (s.startJump c) :=
  withGenerator_valid hw rfl _

/-- JUMPING(0) is 128 passes from the end of the JUMP. -/
theorem State.startJump_runsTo (hw : s.Holds c w) : (s.startJump c).RunsTo 128 (s.jumped c (jumpWords w)) :=
  State.runsTo_jumped (s := s.startJump c) 127 rfl rfl hw

end

/-- Settles O24: JUMP is taken (`exec_jump_of_holds`), is in JUMPING(n) after `n` passes (`State.exists_jumping_after`), and
ends after the last (`State.startJump_runsTo`). -/
theorem jumpCompletesIn128Passes : Obligations.JumpCompletesIn128Passes := by
  unfold Obligations.JumpCompletesIn128Passes
  intro s c w hw
  refine ⟨s.startJump c, s.jumped c (jumpWords w), exec_jump_of_holds hw, State.startJump_runsTo hw, rfl, rfl,
    fun n hn => ?_⟩
  have hiter : (s.startJump c).scratch.iter.toNat = 0 := rfl
  have hmid := State.exists_jumping_after (s := s.startJump c) n rfl (by omega) hw
  rwa [hiter, Nat.zero_add] at hmid

/-- Settles O25: a legal header runs as JUMP (`runCommand_of_ctx_mask`), which tests its context before it
starts the loop. -/
theorem jumpCommand : Obligations.JumpCommand := by
  unfold Obligations.JumpCommand
  intro c s hcode
  have hrun := runCommand_of_ctx_mask (op := .jump) s rfl hcode
  refine ⟨fun hillegal => hrun.trans (if_pos hillegal), fun hlegal => ?_⟩
  rw [hrun, if_neg hlegal]
  refine ⟨fun hg => withGenerator_none hg _, fun g hg hv => withGenerator_unseeded hg hv _, fun g hg hv => ?_⟩
  have hw := State.holds_of_valid hg hv
  exact ⟨_, _, _, _, exec_jump_of_holds hw, State.startJump_runsTo hw, rfl⟩

/-! ## Polynomials in the step map

A loop over chosen iterations is a polynomial in the step map, applied to the words that it starts with. The step map is a
root of a polynomial of degree 128 (`StepPoly.eval_stepCharPoly`), so polynomials of degree below 128 are multiplied modulo
that one, and 2^64 steps are the polynomial `x`, squared 64 times. -/

/-- The exclusive or of the states after `k` steps, over the chosen `k` below `n`: the loop of a jump, with any bits. -/
def stepSum (c : Nat → Bool) (n : Nat) (w : Word × Word) : Word × Word :=
  selectSteps stepMap xorPair c n 0 (0#64, 0#64) w

/-- The last of `n + 1` iterations, taken apart. -/
theorem selectSteps_last {σ : Type} (step : σ → σ) (add : σ → σ → σ) (c : Nat → Bool) (n : Nat) : ∀ (k : Nat) (acc w : σ),
    selectSteps step add c (n + 1) k acc w =
      if c (k + n) then add (selectSteps step add c n k acc w) (step^[n] w) else selectSteps step add c n k acc w := by
  induction n with
  | zero => exact fun _ _ _ => rfl
  | succ n ih =>
    intro k acc w
    have hrest := ih (k + 1) (if c k then add acc w else acc) (step w)
    rwa [Nat.add_right_comm, Nat.add_assoc] at hrest

/-- The matrices follow the words through steps. -/
theorem TracksPair.iterate {input : Nat → Bool} {W : Forms × Forms} {v : Word × Word} (h : TracksPair input W v)
    (m : Nat) : TracksPair input (formsStep^[m] W) (stepMap^[m] v) := by
  induction m with
  | zero => exact h
  | succ m ih =>
    rw [Function.iterate_succ_apply', Function.iterate_succ_apply']
    exact ih.step

theorem xor_right_comm (a b x : Word) : (a ^^^ b) ^^^ x = (a ^^^ x) ^^^ b := by ac_rfl

theorem xor_xor_xor_cancel_right (a b x : Word) : (a ^^^ x) ^^^ (b ^^^ x) = a ^^^ b := by
  rw [xor_xor_xor_comm, BitVec.xor_self, BitVec.xor_zero]

section
variable {c d : Nat → Bool} {n : Nat} (w : Word × Word)

theorem stepSum_succ : stepSum c (n + 1) w =
    if c n then xorPair (stepSum c n w) (stepMap^[n] w) else stepSum c n w := by
  have hlast := selectSteps_last stepMap xorPair c n 0 (0#64, 0#64) w
  rwa [Nat.zero_add] at hlast

theorem stepSum_congr (h : ∀ j < n, c j = d j) : stepSum c n w = stepSum d n w := by
  induction n with
  | zero => rfl
  | succ n ih => rw [stepSum_succ, stepSum_succ, h n n.lt_succ_self, ih fun j hj => h j (Nat.lt_succ_of_lt hj)]

theorem stepSum_xor :
    stepSum (fun j => c j ^^ d j) n w = xorPair (stepSum c n w) (stepSum d n w) := by
  induction n with
  | zero => exact (xorPair_eq_zero_iff.mpr rfl).symm
  | succ n ih =>
    rw [stepSum_succ, stepSum_succ, stepSum_succ, ih]
    cases c n with
    | false =>
      cases d n with
      | false => rfl
      | true => exact Prod.ext (BitVec.xor_assoc _ _ _) (BitVec.xor_assoc _ _ _)
    | true =>
      cases d n with
      | false => exact Prod.ext (xor_right_comm _ _ _) (xor_right_comm _ _ _)
      | true => exact Prod.ext (xor_xor_xor_cancel_right _ _ _).symm (xor_xor_xor_cancel_right _ _ _).symm

/-- Choosing the next iterations instead steps the sum. -/
theorem stepSum_shift (h0 : d 0 = false) (h : ∀ j < n, d (j + 1) = c j) :
    stepSum d (n + 1) w = stepMap (stepSum c n w) := by
  induction n with
  | zero =>
    rw [stepSum_succ, h0]
    exact stepMap_zero.symm
  | succ n ih =>
    rw [stepSum_succ, h n n.lt_succ_self, ih fun j hj => h j (Nat.lt_succ_of_lt hj), stepSum_succ, apply_ite stepMap,
      stepMap_xorPair, Function.iterate_succ_apply']

/-- A sum that is `m` steps on the matrices is `m` steps on all words. -/
theorem stepSum_eq_iterate {m : Nat}
    (h : selectSteps formsStep formsXor c n 0 (0, 0) startForms = formsStep^[m] startForms) :
    stepSum c n w = stepMap^[m] w := by
  have hstart := startForms_tracks w
  have hsum := hstart.loop c n
  rw [h] at hsum
  have hiter := hstart.iterate m
  exact Prod.ext (hsum.1.unique hiter.1) (hsum.2.unique hiter.2)

end

/-- A polynomial over GF(2) of degree below 128, by its coefficients. -/
abbrev StepPoly := BitVec 128

/-- What the polynomial in the step map makes of the words `w`. -/
def StepPoly.eval (c : StepPoly) (w : Word × Word) : Word × Word := stepSum c.getLsbD 128 w

/-- The characteristic polynomial of the step map, without its leading term `x ^ 128`. -/
def stepCharPoly : StepPoly := 0x00653CED7F29F88A5FD66762F0E1C001#128

/-- The product with `x` modulo the characteristic polynomial. -/
def StepPoly.mulX (c : StepPoly) : StepPoly := if c.getLsbD 127 then c <<< 1 ^^^ stepCharPoly else c <<< 1

/-- The square modulo the characteristic polynomial: the sum of the `x ^ k * c` over the terms `x ^ k` of `c`. -/
def StepPoly.square (c : StepPoly) : StepPoly := selectSteps StepPoly.mulX (· ^^^ ·) c.getLsbD 128 0 0#128 c

section
variable (c d : StepPoly) (w : Word × Word)

/-- The step map is a root of its characteristic polynomial; checked on the matrices. -/
theorem StepPoly.eval_stepCharPoly : stepCharPoly.eval w = stepMap^[128] w :=
  stepSum_eq_iterate w (by decide +kernel)

theorem StepPoly.eval_x : StepPoly.eval 2#128 w = stepMap w :=
  stepSum_eq_iterate w (m := 1) (by decide +kernel)

theorem StepPoly.eval_xor : (c ^^^ d).eval w = xorPair (c.eval w) (d.eval w) :=
  (stepSum_congr w fun _ _ => BitVec.getLsbD_xor).trans (stepSum_xor w)

theorem StepPoly.eval_zero : StepPoly.eval 0#128 w = (0#64, 0#64) := by
  rw [← BitVec.xor_self (x := 0#128), StepPoly.eval_xor]
  exact xorPair_eq_zero_iff.mpr rfl

theorem StepPoly.eval_mulX : c.mulX.eval w = stepMap (c.eval w) := by
  have hshift : StepPoly.eval (c <<< 1) w = stepMap (stepSum c.getLsbD 127 w) :=
    stepSum_shift w (by simp) fun j hj => by
      simp [BitVec.getLsbD_shiftLeft, -BitVec.getLsbD_eq_getElem, show j + 1 < 128 by omega]
  have htop : c.eval w = if c.getLsbD 127 then xorPair (stepSum c.getLsbD 127 w) (stepMap^[127] w)
      else stepSum c.getLsbD 127 w := stepSum_succ w
  rw [StepPoly.mulX, htop]
  split_ifs
  · rw [StepPoly.eval_xor, hshift, StepPoly.eval_stepCharPoly, stepMap_xorPair, ← Function.iterate_succ_apply' stepMap]
  · exact hshift

/-- A loop over polynomials multiplies by the polynomial of its bits. -/
theorem StepPoly.eval_selectSteps (chosen : Nat → Bool) (n : Nat) :
    StepPoly.eval (selectSteps StepPoly.mulX (· ^^^ ·) chosen n 0 0#128 c) w = stepSum chosen n (c.eval w) :=
  selectSteps_rel (R := fun p v => StepPoly.eval p w = v)
    (@fun p _ hp => (p.eval_mulX w).trans (congrArg stepMap hp))
    (@fun p _ q _ hp hq => (StepPoly.eval_xor p q w).trans (congrArg₂ xorPair hp hq)) chosen n (StepPoly.eval_zero w) rfl

theorem StepPoly.eval_square : c.square.eval w = c.eval (c.eval w) := StepPoly.eval_selectSteps c w c.getLsbD 128

end

/-- `x` squared `n` times is `2 ^ n` steps. -/
theorem StepPoly.eval_square_iterate (n : Nat) :
    ∀ w : Word × Word, (StepPoly.square^[n] 2#128).eval w = stepMap^[2 ^ n] w := by
  induction n with
  | zero => exact StepPoly.eval_x
  | succ n ih =>
    intro w
    rw [Function.iterate_succ_apply', StepPoly.eval_square, ih, ih, ← Function.iterate_add_apply, Nat.pow_succ,
      Nat.mul_two]

/-! ## The jump is 2^64 steps (R140), and so is linear (R146) -/

/-- The two jump constants as one polynomial. -/
def jumpPoly : StepPoly := jumpConst1 ++ jumpConst0

theorem jumpWords_eq_eval (w : Word × Word) : jumpWords w = jumpPoly.eval w := by
  have hbits : ∀ k < 128, jumpBit k = jumpPoly.getLsbD k := by decide
  rw [jumpWords, jumpLoop_eq_selectSteps]
  exact stepSum_congr w hbits

/-- `x ^ (2 ^ 64)` modulo the characteristic polynomial is the polynomial of the jump. -/
theorem square_iterate_64 : StepPoly.square^[64] 2#128 = jumpPoly := by decide +kernel

theorem jumpWords_eq_iterate : jumpWords = stepMap^[2 ^ 64] := by
  funext w
  rw [jumpWords_eq_eval, ← square_iterate_64, StepPoly.eval_square_iterate]

/-- Settles O27: squaring `x` 64 times gives the polynomial of the jump. -/
theorem jumpIsTwoToThe64Steps : Obligations.JumpIsTwoToThe64Steps := by
  unfold Obligations.JumpIsTwoToThe64Steps
  exact congrFun jumpWords_eq_iterate

theorem jumpWords_xorPair (a b : Word × Word) : jumpWords (xorPair a b) = xorPair (jumpWords a) (jumpWords b) := by
  have hstep : Function.Semiconj₂ stepMap xorPair xorPair := stepMap_xorPair
  rw [jumpWords_eq_iterate]
  exact hstep.iterate _ a b

theorem jumpWords_stepMap (w : Word × Word) : jumpWords (stepMap w) = stepMap (jumpWords w) := by
  rw [jumpWords_eq_iterate]
  exact (Function.Commute.iterate_self stepMap _) w

/-- Settles O26: the jump is as many steps, and steps are linear and commute; the rows of the table are computed. -/
theorem jumpIsLinear : Obligations.JumpIsLinear := by
  unfold Obligations.JumpIsLinear
  refine ⟨jumpWords_xorPair, jumpWords_stepMap, jumpWords_zero, ?_⟩
  decide +kernel

end Sys2Proof.Machine

/-! Proofs of the family 45_range.md: the three values of a ranged draw, its reduction, RANGE executed and from its header,
the passes of its loop, and that the loop ends. -/

namespace Sys2Proof.Machine

/-! ## The three values and the reduction (R152 to R157) -/

/-- What the three values of the interval [lo, hi) are as numbers, and how large. -/
structure RangeParams.Measures (p : RangeParams) (lo hi : Word) : Prop where
  range         : p.range.toNat = hi.toNat - lo.toNat
  range_pos     : 1 ≤ p.range.toNat
  bucket        : p.bucketSize.toNat = (2 ^ 64 - 1) / p.range.toNat
  bucket_pos    : 1 ≤ p.bucketSize.toNat
  threshold     : p.threshold.toNat = (2 ^ 64 - 1) - (2 ^ 64 - 1) % p.range.toNat
  threshold_mul : p.threshold.toNat = p.range.toNat * p.bucketSize.toNat
  le_threshold  : 2 ^ 63 ≤ p.threshold.toNat

/-- `RAND_MAX` is the threshold and a remainder below the range. The threshold is the larger of the two, since it is a
multiple of the range (R153). -/
theorem measures_of_rangeParams {lo hi : Word} {p : RangeParams} (hlt : lo < hi) (hp : rangeParams lo hi = some p) :
    p.Measures lo hi := by
  have hdraw := drawsProperly_of_rangeParams hlt hp (sc :=
    { Scratch.zero with minL := lo, range := p.range, bucketSize := p.bucketSize, threshold := p.threshold }) rfl rfl rfl rfl
  have hrange : p.range.toNat = hi.toNat - lo.toNat := by
    obtain rfl := Option.some.inj ((rangeParams_of_lt hlt).symm.trans hp)
    exact sub64_toNat (BitVec.le_of_lt hlt)
  have hpos : 0 < p.range.toNat := hdraw.range_pos
  have hbucket : p.bucketSize.toNat = (2 ^ 64 - 1) / p.range.toNat := hdraw.bucket
  have hbucket_pos : 0 < p.bucketSize.toNat := hbucket ▸ Nat.div_pos (Nat.le_sub_one_of_lt p.range.isLt) hpos
  have hthreshold : p.threshold.toNat = (2 ^ 64 - 1) - (2 ^ 64 - 1) % p.range.toNat := hdraw.threshold
  have hdecomp := Nat.div_add_mod (2 ^ 64 - 1) p.range.toNat
  rw [← hbucket] at hdecomp
  have hrest := Nat.mod_lt (2 ^ 64 - 1) hpos
  have hmultiple := Nat.le_mul_of_pos_right p.range.toNat hbucket_pos
  exact ⟨hrange, hpos, hbucket, hbucket_pos, hthreshold, by omega, by omega⟩

section
variable {lo hi r : Word} {p : RangeParams}

theorem RangeParams.Measures.reduce_eq (h : p.Measures lo hi) : reduce lo p.bucketSize r = some (lo + r / p.bucketSize) := by
  have hne : p.bucketSize ≠ 0#64 := fun hz => absurd h.bucket_pos (by simp [hz])
  rw [reduce, udiv64_of_ne hne]
  rfl

/-- The quotient of an accepted raw value is below the range (R156). -/
theorem RangeParams.Measures.div_lt (h : p.Measures lo hi) (hr : r.toNat < p.threshold.toNat) :
    r.toNat / p.bucketSize.toNat < p.range.toNat :=
  Nat.div_lt_of_lt_mul (by rwa [Nat.mul_comm, ← h.threshold_mul])

/-- What is below the range can be added to the lower bound without a wrap (R156). -/
theorem RangeParams.Measures.add_lt (h : p.Measures lo hi) {q : Nat} (hq : q < p.range.toNat) : lo.toNat + q < hi.toNat := by
  have hrange := h.range
  omega

theorem RangeParams.Measures.reduced_toNat (h : p.Measures lo hi) (hr : r.toNat < p.threshold.toNat) :
    (lo + r / p.bucketSize).toNat = lo.toNat + r.toNat / p.bucketSize.toNat := by
  rw [BitVec.toNat_add, BitVec.toNat_udiv]
  exact Nat.mod_eq_of_lt ((h.add_lt (h.div_lt hr)).trans hi.isLt)

/-- An accepted raw value reduces to `lo + q` exactly when its quotient is `q` (R156). -/
theorem RangeParams.Measures.reduce_eq_iff (h : p.Measures lo hi) (hr : r.toNat < p.threshold.toNat) {q : Nat}
    (hq : q < p.range.toNat) :
    reduce lo p.bucketSize r = some (BitVec.ofNat 64 (lo.toNat + q)) ↔ r.toNat / p.bucketSize.toNat = q := by
  rw [h.reduce_eq, Option.some.injEq, ← BitVec.toNat_inj, h.reduced_toNat hr, BitVec.toNat_ofNat,
    Nat.mod_eq_of_lt ((h.add_lt hq).trans hi.isLt), Nat.add_left_cancel_iff]

end

/-- Settles O30: `rangeParams_of_lt` gives the three values and `measures_of_rangeParams` their sizes. -/
theorem rangeParameters : Obligations.RangeParameters := by
  unfold Obligations.RangeParameters
  intro lo hi hlt
  have hp := rangeParams_of_lt (BitVec.lt_def.mpr hlt)
  have h := measures_of_rangeParams (BitVec.lt_def.mpr hlt) hp
  exact ⟨_, hp, h.range, h.range_pos, h.bucket, h.bucket_pos, h.threshold, h.threshold_mul,
    le_trans (by decide) h.le_threshold, h.le_threshold⟩

/-- Settles O31: the quotient of an accepted raw value is below the range, so the sum with the lower bound is below the upper
one. -/
theorem reducedValueIsInInterval : Obligations.ReducedValueIsInInterval := by
  unfold Obligations.ReducedValueIsInInterval
  intro lo hi r p hlt hp hr
  have h := measures_of_rangeParams (BitVec.lt_def.mpr hlt) hp
  refine ⟨_, h.reduce_eq, h.reduced_toNat hr, ?_, ?_⟩
  · rw [h.reduced_toNat hr]
    exact Nat.le_add_right _ _
  · rw [h.reduced_toNat hr]
    exact h.add_lt (h.div_lt hr)

/-- Settles O32: the raw values with quotient `q` are a bucket, and every bucket with `q` below the range ends at or below the
threshold, which is the end of the last. -/
theorem bucketsAreEqual : Obligations.BucketsAreEqual := by
  unfold Obligations.BucketsAreEqual
  intro lo hi p hlt hp
  have h := measures_of_rangeParams (BitVec.lt_def.mpr hlt) hp
  have hbucket (q : Nat) (r : Word) : r.toNat / p.bucketSize.toNat = q ↔
      q * p.bucketSize.toNat ≤ r.toNat ∧ r.toNat < (q + 1) * p.bucketSize.toNat := by
    rw [← Nat.le_div_iff_mul_le h.bucket_pos, ← Nat.div_lt_iff_lt_mul h.bucket_pos]
    omega
  refine ⟨fun q r hq => ⟨fun ⟨hr, hred⟩ => (hbucket q r).mp ((h.reduce_eq_iff hr hq).mp hred), fun hr => ?_⟩, ?_⟩
  · have hlast : (q + 1) * p.bucketSize.toNat ≤ p.threshold.toNat :=
      h.threshold_mul ▸ Nat.mul_le_mul_right p.bucketSize.toNat hq
    have haccepted := hr.2.trans_le hlast
    exact ⟨haccepted, (h.reduce_eq_iff haccepted hq).mpr ((hbucket q r).mpr hr)⟩
  · have hthreshold := h.threshold
    have hle := h.le_threshold
    have hrest := Nat.mod_le (2 ^ 64 - 1) p.range.toNat
    omega

/-! ## RANGE, executed (R151, R158) -/

section
variable {s : State} {c : Nat} {w w' : Word × Word} {lo hi : Word} {p : RangeParams}

theorem exec_range_of_eq (hw : s.Holds c w) (heq : lo = hi) :
    exec (.range c lo hi) s = .next (s.respond (Response.value lo)) :=
  (withGenerator_valid hw rfl _).trans (if_pos heq)

theorem exec_range_of_gt (hw : s.Holds c w) (hgt : hi < lo) :
    exec (.range c lo hi) s = .next (s.respond (Response.value 0#64)) :=
  (withGenerator_valid hw rfl _).trans ((if_neg (BitVec.ne_of_lt hgt).symm).trans (if_pos hgt))

/-- The state DRAWING of a RANGE on context `c` with the lower bound `lo` (R158). -/
def State.startRange (s : State) (c : Nat) (lo : Word) (p : RangeParams) : State :=
  { s with
    phase := .drawing
    scratch := { s.scratch with
      ctx := c, minL := lo, range := p.range, bucketSize := p.bucketSize, threshold := p.threshold } }

theorem exec_range_of_lt (hw : s.Holds c w) (hlt : lo < hi) (hp : rangeParams lo hi = some p) :
    exec (.range c lo hi) s = .next (s.startRange c lo p) := by
  refine (withGenerator_valid hw rfl _).trans ?_
  rw [if_neg (BitVec.ne_of_lt hlt), if_neg (BitVec.lt_asymm hlt), hp]
  rfl

/-! ## The passes of a RANGE (R155, R158) -/

/-- The state after rejected passes: the running context holds the words `w`, and the last raw value was `raw`. -/
def State.rejected (s : State) (w : Word × Word) (raw : Word) : State :=
  { s.setCtx s.scratch.ctx ⟨w.1, w.2, true⟩ with scratch := { s.scratch with raw := raw } }

/-- The end of a RANGE on context `c`: it leaves the words `w`, releases the hidden registers and answers `d`. -/
def State.drawn (s : State) (c : Nat) (w : Word × Word) (d : Word) : State :=
  ((s.setCtx c ⟨w.1, w.2, true⟩).releaseScratch).respond (Response.value d)

theorem step_of_drawing (hp : s.phase = .drawing) : step s = drawPass s := by rw [step, hp]

theorem drawPass_of_rejected (hw : s.Holds s.scratch.ctx w) (h : s.scratch.threshold ≤ stepOutput w) :
    drawPass s = .next (s.rejected (stepMap w) (stepOutput w)) := by
  rw [drawPass, hw]
  exact if_pos h

theorem drawPass_of_accepted (hw : s.Holds s.scratch.ctx w) (h : stepOutput w < s.scratch.threshold) {d : Word}
    (hd : reduce s.scratch.minL s.scratch.bucketSize (stepOutput w) = some d) :
    drawPass s = .next (s.drawn s.scratch.ctx (stepMap w) d) := by
  rw [drawPass, hw]
  refine (if_neg (BitVec.not_le.mpr h)).trans ?_
  rw [show reduce s.scratch.minL s.scratch.bucketSize (stepWords w.1 w.2).result = some d from hd]
  rfl

theorem State.rejected_holds (hw : s.Holds s.scratch.ctx w') (raw : Word) : (s.rejected w raw).Holds s.scratch.ctx w :=
  s.ctx?_setCtx_self _ (s.lt_of_ctx?_eq_some hw)

/-- Rejected passes leave nothing of those before them. -/
theorem State.rejected_rejected (s : State) (w w' : Word × Word) (raw raw' : Word) :
    (s.rejected w raw).rejected w' raw' = s.rejected w' raw' := by
  simp [State.rejected, State.setCtx]

/-- Nor does the end of the draw. -/
theorem State.rejected_drawn (s : State) (w w' : Word × Word) (raw d : Word) :
    (s.rejected w raw).drawn s.scratch.ctx w' d = s.drawn s.scratch.ctx w' d := by
  simp [State.rejected, State.drawn, State.setCtx, State.releaseScratch, State.respond]

/-- Before the first pass none was rejected. -/
theorem State.rejected_self (hw : s.Holds s.scratch.ctx w) : s.rejected w s.scratch.raw = s := by
  have hctxs : (s.setCtx s.scratch.ctx ⟨w.1, w.2, true⟩).ctxs = s.ctxs := State.setCtx_ctxs_of_ctx? hw
  rw [State.setCtx_ctxs] at hctxs
  simp [State.rejected, State.setCtx, hctxs]

/-- While the outputs of its context are rejected, a RANGE goes on drawing, one step for each pass. -/
theorem State.exists_runsTo_rejected (hp : s.phase = .drawing) (hw : s.Holds s.scratch.ctx w) (n : Nat)
    (h : ∀ k < n, s.scratch.threshold ≤ stepOutput (stepMap^[k] w)) :
    ∃ raw, s.RunsTo n (s.rejected (stepMap^[n] w) raw) := by
  induction n with
  | zero => exact ⟨s.scratch.raw, (State.rejected_self hw).symm ▸ s.runsTo_zero⟩
  | succ n ih =>
    obtain ⟨raw, hrun⟩ := ih fun k hk => h k (Nat.lt_succ_of_lt hk)
    have hpass := (step_of_drawing (s := s.rejected (stepMap^[n] w) raw) hp).trans
      (drawPass_of_rejected (State.rejected_holds hw raw) (h n n.lt_succ_self))
    rw [State.rejected_rejected, ← Function.iterate_succ_apply' stepMap] at hpass
    exact ⟨_, State.runsTo_trans hrun (State.runsTo_succ hpass (State.runsTo_zero _))⟩

/-- The pass after `n` rejected ones, if it is accepted, ends the RANGE. -/
theorem State.runsTo_drawn (hp : s.phase = .drawing) (hw : s.Holds s.scratch.ctx w) {n : Nat}
    (h : ∀ k < n, s.scratch.threshold ≤ stepOutput (stepMap^[k] w)) (hn : stepOutput (stepMap^[n] w) < s.scratch.threshold)
    {d : Word} (hd : reduce s.scratch.minL s.scratch.bucketSize (stepOutput (stepMap^[n] w)) = some d) :
    s.RunsTo (n + 1) (s.drawn s.scratch.ctx (stepMap^[n + 1] w) d) := by
  obtain ⟨raw, hrun⟩ := State.exists_runsTo_rejected hp hw n h
  have hpass := (step_of_drawing (s := s.rejected (stepMap^[n] w) raw) hp).trans
    (drawPass_of_accepted (State.rejected_holds hw raw) hn hd)
  have hend : (s.rejected (stepMap^[n] w) raw).drawn s.scratch.ctx (stepMap^[n + 1] w) d =
      s.drawn s.scratch.ctx (stepMap^[n + 1] w) d := s.rejected_drawn _ _ _ _
  rw [← hend, Function.iterate_succ_apply' stepMap]
  exact State.runsTo_trans hrun (State.runsTo_succ hpass (State.runsTo_zero _))

end

/-- Settles O34: the passes are those of `State.exists_runsTo_rejected`, and the end that of `State.runsTo_drawn`. -/
theorem rangeCompletesAtFirstAccepted : Obligations.RangeCompletesAtFirstAccepted := by
  unfold Obligations.RangeCompletesAtFirstAccepted
  intro s c w lo hi p n hw hlt hp hrejected haccepted
  have h := measures_of_rangeParams (BitVec.lt_def.mpr hlt) hp
  have hreduced := (h.reduce_eq_iff haccepted (h.div_lt haccepted)).mpr rfl
  refine ⟨s.startRange c lo p, _, exec_range_of_lt hw (BitVec.lt_def.mpr hlt) hp,
    State.runsTo_drawn (s := s.startRange c lo p) rfl hw (fun k hk => BitVec.le_def.mpr (hrejected k hk))
      (BitVec.lt_def.mpr haccepted) hreduced, rfl, fun m hm => ?_⟩
  obtain ⟨raw, hrun⟩ := State.exists_runsTo_rejected (s := s.startRange c lo p) rfl hw m fun k hk =>
    BitVec.le_def.mpr (hrejected k (hk.trans_le hm))
  exact ⟨_, hrun, rfl, rfl, rfl⟩

/-- Settles O35: a legal header runs as RANGE (`runCommand_of_ctx_mask`), which tests its context, then compares its bounds. -/
theorem rangeCommand : Obligations.RangeCommand := by
  unfold Obligations.RangeCommand
  intro c s hcode
  rw [runCommand_of_ctx_mask (op := .range) s rfl hcode]
  by_cases hillegal : srcField c.h ≠ 0 ∨ zeroField c.h ≠ 0 ∨ spBit c.h = true
  · rw [if_pos hillegal, if_pos hillegal]
    rfl
  rw [if_neg hillegal, if_neg hillegal]
  cases hg : s.ctx? (ctxField c.h) with
  | none => exact withGenerator_none hg _
  | some g =>
    by_cases hv : g.valid = false
    · exact (withGenerator_unseeded hg hv _).trans (if_pos hv).symm
    have hw := State.holds_of_valid hg (Bool.eq_true_of_not_eq_false hv)
    refine Eq.trans ?_ (if_neg hv).symm
    split_ifs with heq hgt
    · exact exec_range_of_eq hw heq
    · exact exec_range_of_gt hw hgt
    · have hlt : c.a < c.b := BitVec.lt_of_le_ne (BitVec.not_lt.mp hgt) heq
      exact exec_range_of_lt hw hlt (rangeParams_of_lt hlt)

/-- Settles O29: `exec_range_of_eq` and `exec_range_of_gt`. -/
theorem rangeEdgePolicy : Obligations.RangeEdgePolicy := by
  unfold Obligations.RangeEdgePolicy
  exact fun s c w lo hi hw => ⟨exec_range_of_eq hw, fun hgt => exec_range_of_gt hw (BitVec.lt_def.mpr hgt)⟩

/-- Settles O33: the three values exist (`rangeParams_of_lt`), so the command enters its loop (`exec_range_of_lt`). -/
theorem rangeStartsDrawing : Obligations.RangeStartsDrawing := by
  unfold Obligations.RangeStartsDrawing
  intro s c w lo hi hw hlt
  have hp := rangeParams_of_lt (BitVec.lt_def.mpr hlt)
  exact ⟨_, hp, exec_range_of_lt hw (BitVec.lt_def.mpr hlt) hp⟩


/-! ## Every generator comes to an output below 2^63 (R159)

An output is below 2^63 when bits 62 of the two words are equal to each other and to the exclusive or of bits 63. These are
two linear conditions on the words. Along a generator whose period is odd they cannot fail at every step: the sums over the
period, modulo 2, of the two forms and of their product are zero, because no linear form and no bilinear form but zero is
kept by every step. R159 argues from the full period (R135); here it is enough that 2^128 - 1 steps lead back. -/

/-- A bit as a number modulo 2. -/
def bitValue (b : Bool) : ZMod 2 := if b then 1 else 0

theorem bitValue_xor (a b : Bool) : bitValue (a ^^ b) = bitValue a + bitValue b := by
  revert a b
  decide

theorem bitValue_eq_zero_iff {b : Bool} : bitValue b = 0 ↔ b = false := by
  revert b
  decide

/-- A linear form on the states. -/
def XorAdditive (φ : Word × Word → ZMod 2) : Prop := ∀ u v, φ (xorPair u v) = φ u + φ v

theorem XorAdditive.map_zero {φ : Word × Word → ZMod 2} (h : XorAdditive φ) : φ (0#64, 0#64) = 0 := by
  have hzero := h (0#64, 0#64) (0#64, 0#64)
  rwa [CharTwo.add_self_eq_zero] at hzero

theorem XorAdditive.map_stepSum {φ : Word × Word → ZMod 2} (h : XorAdditive φ) (c : Nat → Bool) (n : Nat)
    (w : Word × Word) : φ (stepSum c n w) = ∑ j ∈ Finset.range n, if c j then φ (stepMap^[j] w) else 0 := by
  induction n with
  | zero => exact h.map_zero
  | succ n ih =>
    rw [stepSum_succ, Finset.sum_range_succ, ← ih]
    split_ifs
    · exact h _ _
    · exact (add_zero _).symm

theorem XorAdditive.iterate {φ : Word × Word → ZMod 2} (h : XorAdditive φ) (k : Nat) (u v : Word × Word) :
    φ (stepMap^[k] (xorPair u v)) = φ (stepMap^[k] u) + φ (stepMap^[k] v) := by
  have hstep : Function.Semiconj₂ stepMap xorPair xorPair := stepMap_xorPair
  rw [hstep.iterate k u v, h]

/-- Bit 62 of the output, without its carry. -/
def sumBit62 (w : Word × Word) : Bool := w.1.getLsbD 62 ^^ w.2.getLsbD 62

/-- Bit 63 of the output, if bits 62 of the words are equal: they are the carry. -/
def sumBit63 (w : Word × Word) : Bool := (w.1.getLsbD 63 ^^ w.2.getLsbD 63) ^^ w.1.getLsbD 62

theorem xorAdditive_sumBit62 : XorAdditive fun w => bitValue (sumBit62 w) := by
  intro u v
  simp only [sumBit62, xorPair, BitVec.getLsbD_xor, bitValue_xor]
  ring

theorem xorAdditive_sumBit63 : XorAdditive fun w => bitValue (sumBit63 w) := by
  intro u v
  simp only [sumBit63, xorPair, BitVec.getLsbD_xor, bitValue_xor]
  ring

/-- With bits 62 equal the carry into bit 63 is that bit, and bit 63 of the output is then 0. -/
theorem stepOutput_lt {w : Word × Word} (h62 : sumBit62 w = false) (h63 : sumBit63 w = false) :
    (stepOutput w).toNat < 2 ^ 63 := by
  have hout : (stepOutput w).toNat = (w.1.toNat + w.2.toNat) % 2 ^ 64 := add64_toNat w.1 w.2
  have hw1 := w.1.isLt
  have hw2 := w.2.isLt
  rw [sumBit62, bne_eq_false_iff_eq] at h62
  rw [sumBit63, bne_eq_false_iff_eq] at h63
  simp only [BitVec.getLsbD, Nat.testBit_eq_decide_div_mod_eq] at h62 h63
  cases hcarry : decide (w.1.toNat / 2 ^ 62 % 2 = 1) with
  | false =>
    rw [hcarry] at h62 h63
    simp only [false_eq_decide_iff, bne_eq_false_iff_eq, decide_eq_decide, decide_eq_false_iff_not] at h62 h63 hcarry
    omega
  | true =>
    rw [hcarry] at h62 h63
    simp only [true_eq_decide_iff, bne_iff_ne, ne_eq, decide_eq_decide, decide_eq_true_eq] at h62 h63 hcarry
    omega

theorem StepPoly.eval_one (w : Word × Word) : StepPoly.eval 1#128 w = w :=
  stepSum_eq_iterate w (m := 0) (by decide +kernel)

/-! ### What every step keeps is zero -/

section
variable {L : Word × Word → ZMod 2} {B : Word × Word → Word × Word → ZMod 2}

/-- The inverse of `x + 1` modulo the characteristic polynomial. -/
def addStepInverse : StepPoly := 0xFFDCEBA4D518A879CAB222DE505F4000#128

/-- `x + 1` is invertible modulo the characteristic polynomial, so every state is a state and its successor, added. -/
theorem exists_xorPair_stepMap (v : Word × Word) : ∃ u, xorPair u (stepMap u) = v := by
  have hinverse : addStepInverse ^^^ addStepInverse.mulX = 1#128 := by decide
  refine ⟨addStepInverse.eval v, ?_⟩
  rw [← StepPoly.eval_mulX, ← StepPoly.eval_xor, hinverse, StepPoly.eval_one]

/-- The step map keeps no linear form but zero. -/
theorem XorAdditive.eq_zero_of_step (h : XorAdditive L) (hstep : ∀ u, L (stepMap u) = L u) (v : Word × Word) : L v = 0 := by
  obtain ⟨u, rfl⟩ := exists_xorPair_stepMap v
  rw [h, hstep, CharTwo.add_self_eq_zero]

/-- The characteristic polynomial of the step map, with its leading term. -/
def stepCharBits : BitVec 129 := 1#1 ++ stepCharPoly

theorem stepSum_stepCharBits (w : Word × Word) : stepSum stepCharBits.getLsbD 129 w = (0#64, 0#64) := by
  have hlow : ∀ j < 128, stepCharBits.getLsbD j = stepCharPoly.getLsbD j := by decide
  have htop : stepCharBits.getLsbD 128 = true := by decide
  rw [stepSum_succ, if_pos htop, stepSum_congr w hlow]
  exact xorPair_eq_zero_iff.mpr (StepPoly.eval_stepCharPoly w)

/-- The inverse, modulo the characteristic polynomial, of that polynomial with its coefficients in the opposite order. -/
def reverseInverse : StepPoly := 0xA202415E65B20DEE93B0B53E9CAEC31D#128

/-- The characteristic polynomial with its coefficients in the opposite order is invertible modulo the characteristic
polynomial: every state is its value on some state. -/
theorem exists_stepSum_reverse (v : Word × Word) : ∃ u, stepSum (fun j => stepCharBits.getLsbD (128 - j)) 129 u = v := by
  have hinverse : selectSteps StepPoly.mulX (· ^^^ ·) (fun j => stepCharBits.getLsbD (128 - j)) 129 0 0#128
      reverseInverse = 1#128 := by decide +kernel
  refine ⟨reverseInverse.eval v, ?_⟩
  rw [← StepPoly.eval_selectSteps, hinverse, StepPoly.eval_one]

/-- A bilinear form on the states that every step keeps. -/
structure InvariantForm (B : Word × Word → Word × Word → ZMod 2) : Prop where
  left  : ∀ v, XorAdditive fun u => B u v
  right : ∀ u, XorAdditive (B u)
  step  : ∀ u v, B (stepMap u) (stepMap v) = B u v

theorem InvariantForm.iterate (h : InvariantForm B) (k : Nat) (u v : Word × Word) :
    B (stepMap^[k] u) (stepMap^[k] v) = B u v := by
  induction k with
  | zero => rfl
  | succ k ih => rw [Function.iterate_succ_apply', Function.iterate_succ_apply', h.step, ih]

/-- A polynomial in the step map goes from one argument to the other with its coefficients in the opposite order. -/
theorem InvariantForm.stepSum_reverse (h : InvariantForm B) (c : Nat → Bool) (n : Nat) (u v : Word × Word) :
    B (stepSum (fun j => c (n - j)) (n + 1) u) v = B (stepMap^[n] u) (stepSum c (n + 1) v) := by
  rw [(h.right _).map_stepSum, ← Finset.sum_range_reflect, (h.left v).map_stepSum]
  refine Finset.sum_congr rfl fun j hj => ?_
  have hsplit : stepMap^[n] u = stepMap^[n - j] (stepMap^[j] u) := by
    rw [← Function.iterate_add_apply, Nat.sub_add_cancel (Nat.le_of_lt_succ (Finset.mem_range.mp hj))]
  rw [Nat.add_sub_cancel, hsplit, h.iterate]

/-- The step map keeps no bilinear form but zero. -/
theorem InvariantForm.eq_zero (h : InvariantForm B) (u v : Word × Word) : B u v = 0 := by
  obtain ⟨u', rfl⟩ := exists_stepSum_reverse u
  rw [h.stepSum_reverse, stepSum_stepCharBits]
  exact (h.right _).map_zero

end

/-! ### Sums over a period -/

/-- After 2^128 - 1 steps every state is back where it was: `x` squared 128 times is `x` (R135). -/
theorem stepMap_iterate_period (w : Word × Word) : stepMap^[2 ^ 128 - 1] w = w := by
  have hpoly : StepPoly.square^[128] 2#128 = 2#128 := by
    refine (Function.iterate_add_apply _ 64 64 _).trans ?_
    rw [square_iterate_64]
    decide +kernel
  have hsucc : stepMap^[2 ^ 128] w = stepMap w := by
    rw [← StepPoly.eval_square_iterate, hpoly, StepPoly.eval_x]
  refine stepMap_injective ?_
  rw [← Function.iterate_succ_apply' stepMap]
  exact hsucc

theorem one_add_add_add_mul_eq_zero {a b : ZMod 2} (h : ¬ (a = 0 ∧ b = 0)) : 1 + a + b + a * b = 0 := by
  revert a b
  decide

section
variable {φ ψ : Word × Word → ZMod 2} {n : Nat} (hperiod : ∀ w, stepMap^[n] w = w)
include hperiod

/-- The sum over a period may as well begin one step on. -/
theorem sum_range_step (F : Word × Word → Word × Word → ZMod 2) (u v : Word × Word) :
    ∑ k ∈ Finset.range n, F (stepMap^[k] (stepMap u)) (stepMap^[k] (stepMap v)) =
      ∑ k ∈ Finset.range n, F (stepMap^[k] u) (stepMap^[k] v) := by
  refine add_right_cancel (b := F u v) ?_
  have hlast := Finset.sum_range_succ (fun k => F (stepMap^[k] u) (stepMap^[k] v)) n
  have hfirst := Finset.sum_range_succ' (fun k => F (stepMap^[k] u) (stepMap^[k] v)) n
  rw [hperiod, hperiod] at hlast
  exact hfirst.symm.trans hlast

theorem XorAdditive.sum_range_eq_zero (h : XorAdditive φ) (w : Word × Word) :
    ∑ k ∈ Finset.range n, φ (stepMap^[k] w) = 0 := by
  refine XorAdditive.eq_zero_of_step (L := fun u => ∑ k ∈ Finset.range n, φ (stepMap^[k] u)) (fun u v => ?_)
    (fun u => sum_range_step hperiod (fun u _ => φ u) u u) w
  rw [← Finset.sum_add_distrib]
  exact Finset.sum_congr rfl fun k _ => h.iterate k u v

theorem XorAdditive.sum_range_mul_eq_zero (hφ : XorAdditive φ) (hψ : XorAdditive ψ) (w : Word × Word) :
    ∑ k ∈ Finset.range n, φ (stepMap^[k] w) * ψ (stepMap^[k] w) = 0 := by
  refine InvariantForm.eq_zero (B := fun u v => ∑ k ∈ Finset.range n, φ (stepMap^[k] u) * ψ (stepMap^[k] v))
    ⟨fun v u u' => ?_, fun u v v' => ?_, sum_range_step hperiod fun u v => φ u * ψ v⟩ w w
  · rw [← Finset.sum_add_distrib]
    exact Finset.sum_congr rfl fun k _ => (congrArg (· * _) (hφ.iterate k u u')).trans (add_mul _ _ _)
  · rw [← Finset.sum_add_distrib]
    exact Finset.sum_congr rfl fun k _ => (congrArg (_ * ·) (hψ.iterate k v v')).trans (mul_add _ _ _)

/-- Two linear forms vanish together at some step: the sum of `(1 + φ) * (1 + ψ)` over a period is the period, which is odd. -/
theorem XorAdditive.exists_both_eq_zero (hφ : XorAdditive φ) (hψ : XorAdditive ψ) (hodd : Odd n) (w : Word × Word) :
    ∃ k, φ (stepMap^[k] w) = 0 ∧ ψ (stepMap^[k] w) = 0 := by
  by_contra hnone
  have hterm (k : Nat) : 1 + φ (stepMap^[k] w) + ψ (stepMap^[k] w) + φ (stepMap^[k] w) * ψ (stepMap^[k] w) = 0 :=
    one_add_add_add_mul_eq_zero fun h => hnone ⟨k, h⟩
  have hsum : ∑ k ∈ Finset.range n,
      (1 + φ (stepMap^[k] w) + ψ (stepMap^[k] w) + φ (stepMap^[k] w) * ψ (stepMap^[k] w)) = 0 :=
    Finset.sum_eq_zero fun k _ => hterm k
  rw [Finset.sum_add_distrib, Finset.sum_add_distrib, Finset.sum_add_distrib, hφ.sum_range_eq_zero hperiod,
    hψ.sum_range_eq_zero hperiod, hφ.sum_range_mul_eq_zero hperiod hψ, Finset.sum_const, Finset.card_range,
    nsmul_one, ZMod.natCast_eq_one_iff_odd.mpr hodd] at hsum
  exact absurd hsum (by decide)

end

/-- Every generator comes to an output below 2^63. -/
theorem exists_stepOutput_lt (w : Word × Word) : ∃ n, (stepOutput (stepMap^[n] w)).toNat < 2 ^ 63 := by
  obtain ⟨n, h62, h63⟩ := xorAdditive_sumBit62.exists_both_eq_zero stepMap_iterate_period xorAdditive_sumBit63
    (by decide) w
  exact ⟨n, stepOutput_lt (bitValue_eq_zero_iff.mp h62) (bitValue_eq_zero_iff.mp h63)⟩

/-- Settles O36: some output is below 2^63 (`exists_stepOutput_lt`), so below the threshold; the RANGE ends at the first that
is below the threshold. -/
theorem everyRangeEnds : Obligations.EveryRangeEnds := by
  unfold Obligations.EveryRangeEnds
  intro s c w lo hi hw hlt
  have hp := rangeParams_of_lt (BitVec.lt_def.mpr hlt)
  have h := measures_of_rangeParams (BitVec.lt_def.mpr hlt) hp
  have hexists : ∃ n, (stepOutput (stepMap^[n] w)).toNat < _ :=
    (exists_stepOutput_lt w).imp fun _ hn => hn.trans_le h.le_threshold
  have haccepted := Nat.find_spec hexists
  obtain ⟨t, u, ht, hrun, rfl, -⟩ := rangeCompletesAtFirstAccepted s c w lo hi _ (Nat.find hexists) hw hlt hp
    (fun k hk => Nat.le_of_not_lt (Nat.find_min hexists hk)) haccepted
  have hfits := h.add_lt (h.div_lt haccepted)
  refine ⟨_, t, _, _, ht, hrun, rfl, rfl, ?_⟩
  rw [BitVec.toNat_ofNat, Nat.mod_eq_of_lt (hfits.trans hi.isLt)]
  exact ⟨Nat.le_add_right _ _, hfits⟩

end Sys2Proof.Machine

/-! Proofs of the family 60_exceptions.md: which status ends an instruction, and that an error changes nothing but the
response and the phase. -/

namespace Sys2Proof.Machine

/-! ## An instruction that runs (R158, R180, R184) -/

section
variable {s t : State} {i : Instr} {c : Nat}

/-- From `s` to `t` a command ended OK at once, or went into the loop of JUMP or RANGE with no response and no context written. -/
def EndsOkOrLoops (s t : State) : Prop :=
  (t.phase = .idle ∧ ∃ r : Response, r.status = .ok ∧ t.responses = s.responses ++ [r]) ∨
    (t.phase ≠ .idle ∧ t.responses = s.responses ∧ t.ctxs = s.ctxs)

theorem EndsOkOrLoops.of_respond {u : State} {r : Response} (hr : r.status = .ok) (hu : u.responses = s.responses) :
    EndsOkOrLoops s (u.respond r) :=
  .inl ⟨rfl, r, hr, congrArg (· ++ [r]) hu⟩

theorem EndsOkOrLoops.status_eq_ok (h : EndsOkOrLoops s t) {r : Response} (hr : t.responses = s.responses ++ [r]) :
    r.status = .ok := by
  obtain ⟨-, r', hok, hr'⟩ | ⟨-, hnone, -⟩ := h
  · obtain rfl := List.singleton_inj.mp (List.append_cancel_left (hr.symm.trans hr'))
    exact hok
  · exact absurd (List.self_eq_append_right.mp (hnone.symm.trans hr)) (List.cons_ne_nil r [])

theorem Ran.endsOkOrLoops (h : Ran i s t) : EndsOkOrLoops s t := by
  cases i with
  | new c seed =>
    obtain ⟨-, rfl⟩ := h
    obtain ⟨-, -, -, -, -, hresponses⟩ := effectiveSeed_frame seed s
    exact .of_respond rfl hresponses
  | copy d src =>
    obtain ⟨-, g, -, -, rfl⟩ := h
    exact .of_respond rfl rfl
  | jump c =>
    obtain ⟨g, -, -, rfl⟩ := h
    exact .inr ⟨nofun, rfl, rfl⟩
  | next c =>
    obtain ⟨g, -, -, rfl⟩ := h
    exact .of_respond rfl rfl
  | range c lo hi =>
    obtain ⟨g, -, -, ⟨-, rfl⟩ | ⟨-, rfl⟩ | ⟨-, p, -, rfl⟩⟩ := h
    · exact .of_respond rfl rfl
    · exact .of_respond rfl rfl
    · exact .inr ⟨nofun, rfl, rfl⟩
  | mix n =>
    obtain rfl := h
    exact .of_respond rfl rfl
  | rdmax =>
    obtain rfl := h
    exact .of_respond rfl rfl

/-- An instruction that runs found a generator in every context that needs one (R183). -/
theorem Ran.exists_holds (h : Ran i s t) (hc : c ∈ neededGenerators i) : ∃ w, s.Holds c w := by
  cases i with
  | copy d src =>
    obtain ⟨-, g, hg, hv, -⟩ := h
    obtain rfl := List.mem_singleton.mp hc
    exact ⟨_, State.holds_of_valid hg hv⟩
  | jump _ | next _ | range _ _ _ =>
    obtain ⟨g, hg, hv, -⟩ := h
    obtain rfl := List.mem_singleton.mp hc
    exact ⟨_, State.holds_of_valid hg hv⟩
  | new _ _ | mix _ | rdmax => cases hc

/-! ## ERR_RECEIVER comes before ERR_UNSEEDED (R182, R186) -/

/-- A named context that does not exist decides the status, whatever the other context of a COPY holds. -/
theorem exec_of_missing (hc : c ∈ namedContexts i) (hle : s.nctx ≤ c) : exec i s = raise .errReceiver s := by
  have hnone : s.ctx? c = none := (s.ctx?_eq_none_iff c).mpr hle
  cases i with
  | new _ _ =>
    obtain rfl := List.mem_singleton.mp hc
    exact exec_new_of_le hle
  | copy d src =>
    obtain hd | hd := Nat.lt_or_ge d s.nctx
    · obtain rfl | rfl := List.mem_pair.mp hc
      · exact absurd hle (Nat.not_le.mpr hd)
      · exact (exec_copy_of_lt hd).trans (withGenerator_none hnone _)
    · exact exec_copy_of_le hd
  | jump _ | next _ | range _ _ _ =>
    obtain rfl := List.mem_singleton.mp hc
    exact withGenerator_none hnone _
  | mix _ | rdmax => cases hc

/-- Where every named context exists, the instruction ends ERR_UNSEEDED because a needed generator is missing, or runs. -/
theorem exec_cases_of_named (hnamed : ∀ c ∈ namedContexts i, c < s.nctx) :
    ((∃ c ∈ neededGenerators i, ∀ w, ¬ s.Holds c w) ∧ exec i s = raise .errUnseeded s) ∨
      ∃ t, Ran i s t ∧ exec i s = .next t := by
  obtain ⟨⟨c, hc, hnone⟩, -⟩ | ⟨⟨c, hc, g, hg, hv⟩, he⟩ | hran := exec_cases i s
  · exact absurd (hnamed c hc) (Nat.not_lt.mpr ((s.ctx?_eq_none_iff c).mp hnone))
  · refine .inl ⟨⟨c, hc, fun w hw => ?_⟩, he⟩
    obtain rfl := Option.some.inj (hg.symm.trans hw)
    cases hv
  · exact .inr hran

/-! ## A command taken ends with an error or runs (R185) -/

theorem runCommand_raises_or_ran {cmd : Command} (h : runCommand cmd s = .next t) :
    (∃ st, t = s.respond (Response.plain st)) ∨ ∃ i, Ran i s t := by
  obtain ⟨_, -, he⟩ | ⟨i, -, hi⟩ := runCommand_cases cmd s
  · cases he.symm.trans h
    exact .inl ⟨_, rfl⟩
  · obtain ⟨-, he⟩ | ⟨-, he⟩ | ⟨t', hran, he⟩ := exec_cases i s <;> cases (hi.trans he).symm.trans h
    · exact .inl ⟨_, rfl⟩
    · exact .inl ⟨_, rfl⟩
    · exact .inr ⟨i, hran⟩

end

/-- Settles O45: a missing context decides first (`exec_of_missing`); where all exist, `exec_cases_of_named` leaves two ways to
end, and what the needed contexts hold excludes one of them. -/
theorem statusOfEveryInstruction : Obligations.StatusOfEveryInstruction := by
  unfold Obligations.StatusOfEveryInstruction
  refine fun i s => ⟨fun ⟨c, hc, hle⟩ => exec_of_missing hc hle, fun hnamed ⟨c, hc, hno⟩ => ?_, fun hnamed hholds => ?_⟩
  · obtain ⟨-, he⟩ | ⟨t, hran, -⟩ := exec_cases_of_named hnamed
    · exact he
    · obtain ⟨w, hw⟩ := hran.exists_holds hc
      exact absurd hw (hno w)
  · obtain ⟨⟨c, hc, hno⟩, -⟩ | ⟨t, hran, he⟩ := exec_cases_of_named hnamed
    · obtain ⟨w, hw⟩ := hholds c hc
      exact absurd hw (hno w)
    · exact ⟨t, he, hran.endsOkOrLoops⟩

/-- Settles O46: a response with another status than OK is not that of an instruction that ran
(`EndsOkOrLoops.status_eq_ok`), so it was raised. -/
theorem errorsWriteNothing : Obligations.ErrorsWriteNothing := by
  unfold Obligations.ErrorsWriteNothing
  intro c s t r h hr hne
  obtain ⟨st, rfl⟩ | ⟨i, hran⟩ := runCommand_raises_or_ran h
  · obtain rfl := List.singleton_inj.mp (List.append_cancel_left hr)
    exact ⟨rfl, rfl, rfl⟩
  · exact absurd (hran.endsOkOrLoops.status_eq_ok hr) hne

end Sys2Proof.Machine
